-- ==== Sys2Proof/Word.lean ====
section
/-! DEFINITION. The values the block computes with: bits, names, run lengths, pulses, line identifiers
(00_scope.md R10, 20_memory.md R53, R54). A RunLength is a Nat: R10 makes it positive, which WellFormed.lean checks of
operands and ENCODE guarantees (42_run_length_encoder.md R132). There is no machine word and no byte: a bit sequence is a list, its
index 0 the bit sent first. -/

namespace Sys2Proof

/-- A bit, 0 or 1 (R10). -/
abbrev Bit := Fin 2

/-- A bit sequence in transmission order, index 0 first in time, never packed (R53, R54). -/
abbrev Bits := List Bit

/-- A name as the caller supplies it, and a catalog key: a finite string of any length (R9, R10). -/
abbrev Name := List Char

/-- What the output line is driven to during a pulse: the manual's `on` and `off` (R85). -/
inductive Level where
  | on
  | off
deriving DecidableEq, Repr, Inhabited

/-- One pulse: a level and an exact duration in microseconds (R10, R85; the spec's decision D2). -/
structure Pulse where
  level : Level
  dur   : Rat
deriving DecidableEq, Repr

/-- The output-line identifier: opaque, passed through unchanged, never computed with (10_state.md R25). The spec gives
it no type and no format, and not that it is a number (N14, D18): the natural number that tells one identifier from
another here is DESIGN CHOICE (notes/assumptions/27.md). -/
structure LineId where
  token : Nat
deriving DecidableEq, Repr

end Sys2Proof
end

