-- ==== Sys2Proof/Syntax.lean ====
section
/-! DEFINITION. The operations of the block, one constructor per row of spec/opcode_table.json, and the requests
a caller issues: a code word of one of the three decode spaces with the operands beside it (00_scope.md R13,
30_encoding.md R70, R71, R78, R80, R81). -/

namespace Sys2Proof

/-- The catalog selector of LOOKUP (R80). -/
inductive Cat where
  | base
  | tail
  | special
deriving DecidableEq, Repr

/-- The instructions. LOOKUP has one row per catalog; SEND has, beside its own row, the six decode classes of
30_encoding.md R78. A class row carries the operands its class can have: the tail is absent in SEND.BASE and
SEND.SPECIAL, provided in SEND.BASE_TAIL, SEND.BAD_TAIL and SEND.SPECIAL_TAIL, either in SEND.UNKNOWN. -/
inductive Instr where
  | lookupBase      (name : Name)
  | lookupTail      (name : Name)
  | lookupSpecial   (name : Name)
  | send            (main : Name) (tail : Option Name)
  | compose         (main : Name) (tail : Option Name)
  | encode          (bits : Bits)
  | synthesize      (rls : List Nat)
  | transmit        (pulses : List Pulse) (line : LineId)
  | sendBase        (main : Name)
  | sendBaseTail    (main : Name) (tail : Name)
  | sendBadTail     (main : Name) (tail : Name)
  | sendSpecial     (main : Name)
  | sendSpecialTail (main : Name) (tail : Name)
  | sendUnknown     (main : Name) (tail : Option Name)
deriving DecidableEq, Repr

/-- The rows of the opcode table, without operands. -/
inductive Op where
  | lookupBase
  | lookupTail
  | lookupSpecial
  | send
  | compose
  | encode
  | synthesize
  | transmit
  | sendBase
  | sendBaseTail
  | sendBadTail
  | sendSpecial
  | sendSpecialTail
  | sendUnknown
deriving DecidableEq, Repr

/-- The row an instruction belongs to. -/
def Instr.op : Instr → Op
  | .lookupBase _        => .lookupBase
  | .lookupTail _        => .lookupTail
  | .lookupSpecial _     => .lookupSpecial
  | .send _ _            => .send
  | .compose _ _         => .compose
  | .encode _            => .encode
  | .synthesize _        => .synthesize
  | .transmit _ _        => .transmit
  | .sendBase _          => .sendBase
  | .sendBaseTail _ _    => .sendBaseTail
  | .sendBadTail _ _     => .sendBadTail
  | .sendSpecial _       => .sendSpecial
  | .sendSpecialTail _ _ => .sendSpecialTail
  | .sendUnknown _ _     => .sendUnknown

/-- The three decode spaces of spec/opcode_table.json ("format"): the catalog selector (R80), the phase code
(R81) and the decode vector K (R77). One number can name a row in each of them, so a request says which space its
code belongs to (DESIGN CHOICE, notes/assumptions/9.md). -/
inductive CodeSpace where
  | cat2
  | phase3
  | k4
deriving DecidableEq, Repr

/-- A code word: a number of one decode space, bit 0 its least significant bit. -/
structure CodeWord where
  space : CodeSpace
  code  : Nat
deriving DecidableEq, Repr

/-- The operands that travel beside the code word, in the shapes of 00_scope.md R13: a name (LOOKUP), a command
(30_encoding.md R70, R71), bits (ENCODE), run lengths (SYNTHESIZE), pulses and a line (TRANSMIT). -/
inductive Operands where
  | name    (n : Name)
  | command (main : Name) (tail : Option Name)
  | bits    (b : Bits)
  | runs    (rls : List Nat)
  | pulses  (ps : List Pulse) (line : LineId)
deriving DecidableEq, Repr

/-- One request at the block's port: a code word and its operands (D1's port CMD). -/
structure Request where
  word     : CodeWord
  operands : Operands
deriving DecidableEq, Repr

/-- Who issues a request: the caller of the spec's machine (00_scope.md R17, 60_exceptions.md R195), or a test bench
outside it, which also calls TRANSMIT by itself as the vectors V-TRN do (44_transmit_and_send.md R160, R171). The
bench is the model's name (notes/assumptions/13.md). -/
inductive Issuer where
  | caller
  | bench
deriving DecidableEq, Repr

/-- A request with its issuer. -/
structure Issued where
  issuer  : Issuer
  request : Request
deriving DecidableEq, Repr

end Sys2Proof
end

