-- ==== Sys2Proof/WellFormed.lean ====
section
/-! DEFINITION. Which operands lie in their type. Two operand types of the spec are narrower than the list that
carries them: a RunLength is positive and a pulse's duration non-negative (00_scope.md R10, 43_carrier_synthesizer.md
R141). Every other operand is any value of its type (R9, R70, R130). -/

namespace Sys2Proof

/-- Why an operand is outside its type. -/
inductive IllTyped where
  /-- A run length 0 (R10, R88, R141). -/
  | zeroRunLength
  /-- A pulse of negative duration (R10, R85). -/
  | negativeDuration
deriving DecidableEq, Repr

/-- The first reason an instruction's operands are outside their types, if any. -/
def Instr.illTyped : Instr → Option IllTyped
  | .lookupBase _        => none
  | .lookupTail _        => none
  | .lookupSpecial _     => none
  | .send _ _            => none
  | .compose _ _         => none
  | .encode _            => none
  | .synthesize rls      => if rls.any (· == 0) then some .zeroRunLength else none
  | .transmit ps _       => if ps.any (fun p => decide (p.dur < 0)) then some .negativeDuration else none
  | .sendBase _          => none
  | .sendBaseTail _ _    => none
  | .sendBadTail _ _     => none
  | .sendSpecial _       => none
  | .sendSpecialTail _ _ => none
  | .sendUnknown _ _     => none

/-- An instruction whose operands all lie in their types. -/
def Instr.wf (i : Instr) : Bool := i.illTyped.isNone

end Sys2Proof
end

