-- ==== Sys2Proof/Decode.lean ====
section
/-! DEFINITION. Decoding a request into an instruction, total on every code and every operand, rejecting by name;
then the encoder. The table is spec/opcode_table.json row for row (30_encoding.md R78, R80, R81). -/

namespace Sys2Proof

/-- Why a request is no instruction. -/
inductive DecodeError where
  /-- The code has bits above its decode space's width. -/
  | codeTooWide
  /-- The catalog selector 3 (R80) or a phase code 5 to 7 (R81). -/
  | unallocated
  /-- The operands are not those of the operation (R13). -/
  | wrongOperands
  /-- The bit TP of K says a tail is present and the operands have none, or the other way round (R76, R77). -/
  | tailPresence
  /-- An operand lies outside its type (R10). -/
  | illTyped (why : IllTyped)
deriving DecidableEq, Repr

/-- How many bits a code of a space has (opcode_table.json "format": CAT2, PHASE3, K4). -/
def CodeSpace.width : CodeSpace → Nat
  | .cat2   => 2
  | .phase3 => 3
  | .k4     => 4

/-- A row of the opcode table: it is selected when (code and mask) = value. -/
structure Row where
  space : CodeSpace
  mask  : Nat
  value : Nat
  op    : Op
deriving DecidableEq, Repr

/-- The row is the one a code selects (R78). -/
def Row.selects (r : Row) (w : CodeWord) : Bool := r.space == w.space && (w.code &&& r.mask) == r.value

/-- spec/opcode_table.json. -/
def opcodeTable : List Row :=
  [⟨.cat2, 0x3, 0x0, .lookupBase⟩, ⟨.cat2, 0x3, 0x1, .lookupTail⟩, ⟨.cat2, 0x3, 0x2, .lookupSpecial⟩] ++
  [⟨.phase3, 0x7, 0x0, .send⟩, ⟨.phase3, 0x7, 0x1, .compose⟩, ⟨.phase3, 0x7, 0x2, .encode⟩,
   ⟨.phase3, 0x7, 0x3, .synthesize⟩, ⟨.phase3, 0x7, 0x4, .transmit⟩] ++
  [⟨.k4, 0xA, 0x8, .sendBase⟩, ⟨.k4, 0xB, 0xB, .sendBaseTail⟩, ⟨.k4, 0xB, 0xA, .sendBadTail⟩,
   ⟨.k4, 0xE, 0x4, .sendSpecial⟩, ⟨.k4, 0xE, 0x6, .sendSpecialTail⟩, ⟨.k4, 0xC, 0x0, .sendUnknown⟩]

/-- The row a code word selects, or why there is none. -/
def decodeOp (w : CodeWord) : Except DecodeError Op :=
  if 2 ^ w.space.width ≤ w.code then .error .codeTooWide
  else
    match opcodeTable.find? (fun r => r.selects w) with
    | some r => .ok r.op
    | none   => .error .unallocated

/-- The bit TP of a decode vector (R77). -/
def tpBit (code : Nat) : Bool := code.testBit 1

/-- A class row of SEND with its command: the tail must be there exactly when TP says so. -/
def attachCommand (op : Op) (code : Nat) (main : Name) (tail : Option Name) : Except DecodeError Instr :=
  if tpBit code = tail.isSome then
    match op, tail with
    | .sendBase, none          => .ok (.sendBase main)
    | .sendBaseTail, some t    => .ok (.sendBaseTail main t)
    | .sendBadTail, some t     => .ok (.sendBadTail main t)
    | .sendSpecial, none       => .ok (.sendSpecial main)
    | .sendSpecialTail, some t => .ok (.sendSpecialTail main t)
    | .sendUnknown, t          => .ok (.sendUnknown main t)
    | _, _                     => .error .wrongOperands
  else .error .tailPresence

/-- An operation with the operands of its request (R13). -/
def attach (op : Op) (code : Nat) : Operands → Except DecodeError Instr
  | .name n =>
      match op with
      | .lookupBase    => .ok (.lookupBase n)
      | .lookupTail    => .ok (.lookupTail n)
      | .lookupSpecial => .ok (.lookupSpecial n)
      | _              => .error .wrongOperands
  | .command m t =>
      match op with
      | .send    => .ok (.send m t)
      | .compose => .ok (.compose m t)
      | o        => attachCommand o code m t
  | .bits b =>
      match op with
      | .encode => .ok (.encode b)
      | _       => .error .wrongOperands
  | .runs rls =>
      match op with
      | .synthesize => .ok (.synthesize rls)
      | _           => .error .wrongOperands
  | .pulses ps l =>
      match op with
      | .transmit => .ok (.transmit ps l)
      | _         => .error .wrongOperands

/-- An instruction whose operands lie in their types, or the reason they do not. -/
def checkTyped (i : Instr) : Except DecodeError Instr :=
  match i.illTyped with
  | none   => .ok i
  | some p => .error (.illTyped p)

/-- The decoder: the row, then the operands, then their types. -/
def decode (q : Request) : Except DecodeError Instr :=
  match decodeOp q.word with
  | .error e => .error e
  | .ok op =>
      match attach op q.word.code q.operands with
      | .error e => .error e
      | .ok i    => checkTyped i

/-- The code word of an instruction: its row's match value (opcode_table.json); in SEND.UNKNOWN, whose row leaves
TP free, TP says whether a tail is provided (R77). -/
def encodeWord : Instr → CodeWord
  | .lookupBase _           => ⟨.cat2, 0⟩
  | .lookupTail _           => ⟨.cat2, 1⟩
  | .lookupSpecial _        => ⟨.cat2, 2⟩
  | .send _ _               => ⟨.phase3, 0⟩
  | .compose _ _            => ⟨.phase3, 1⟩
  | .encode _               => ⟨.phase3, 2⟩
  | .synthesize _           => ⟨.phase3, 3⟩
  | .transmit _ _           => ⟨.phase3, 4⟩
  | .sendBase _             => ⟨.k4, 0x8⟩
  | .sendBaseTail _ _       => ⟨.k4, 0xB⟩
  | .sendBadTail _ _        => ⟨.k4, 0xA⟩
  | .sendSpecial _          => ⟨.k4, 0x4⟩
  | .sendSpecialTail _ _    => ⟨.k4, 0x6⟩
  | .sendUnknown _ none     => ⟨.k4, 0x0⟩
  | .sendUnknown _ (some _) => ⟨.k4, 0x2⟩

/-- The operands of an instruction, in the shape of its request. -/
def encodeOperands : Instr → Operands
  | .lookupBase n        => .name n
  | .lookupTail n        => .name n
  | .lookupSpecial n     => .name n
  | .send m t            => .command m t
  | .compose m t         => .command m t
  | .encode b            => .bits b
  | .synthesize rls      => .runs rls
  | .transmit ps l       => .pulses ps l
  | .sendBase m          => .command m none
  | .sendBaseTail m t    => .command m (some t)
  | .sendBadTail m t     => .command m (some t)
  | .sendSpecial m       => .command m none
  | .sendSpecialTail m t => .command m (some t)
  | .sendUnknown m t     => .command m t

/-- The encoder. -/
def encode (i : Instr) : Request := ⟨encodeWord i, encodeOperands i⟩

/-- The decode space of a table word of `nbits` bits: 2, 3 and 4 bits are the table's three formats. A word
padded to whole bytes does not say its space: codes 0 to 4 are then taken as phase codes and every other as a decode
vector (DESIGN CHOICE, notes/assumptions/9.md). -/
def spaceOfTableWord (nbits w : Nat) : CodeSpace :=
  if nbits = 2 then .cat2
  else if nbits = 3 then .phase3
  else if nbits = 4 then .k4
  else if w ≤ 4 then .phase3
  else .k4

/-- Operands of zeros for a code word: empty names and lists, the line identifier 0, a tail exactly when the
decode vector's TP says one is present. -/
def blankOperands (w : CodeWord) : Operands :=
  match decodeOp w with
  | .ok .lookupBase    => .name []
  | .ok .lookupTail    => .name []
  | .ok .lookupSpecial => .name []
  | .ok .encode        => .bits []
  | .ok .synthesize    => .runs []
  | .ok .transmit      => .pulses [] ⟨0⟩
  | .ok .send          => .command [] none
  | .ok .compose       => .command [] none
  | .ok _              => .command [] (if tpBit w.code then some [] else none)
  | .error _           => .command [] none

/-- The request a table word stands for, its operands zeros. -/
def requestOfTableWord (nbits w : Nat) : Request :=
  let word : CodeWord := ⟨spaceOfTableWord nbits w, w⟩
  ⟨word, blankOperands word⟩

/-- The instruction the decoder reads from a table word. -/
def decodeTableWord (nbits w : Nat) : Option Instr :=
  match decode (requestOfTableWord nbits w) with
  | .ok i    => some i
  | .error _ => none

end Sys2Proof
end

