-- ==== Sys2Proof/Config.lean ====
section
/-! DEFINITION. What is fixed for one machine: the configuration of 00_scope.md R7 (the Effect Table, the timing
values, the line, the two values the block never reads, the character functions, the caller's margin), and the
free value the spec leaves open. The configuration is held in State and written by nothing but reset (R20, R22). -/

namespace Sys2Proof

/-- A catalog: a finite partial map from keys to bit sequences, as a list of entries (10_state.md R21). Its
canonical form, keys strictly rising, is `Catalog.wf` in Machine/Operands.lean. -/
abbrev Catalog := List (Name × Bits)

/-- The Effect Table, the only memory of the block: three separate address spaces (20_memory.md R50). -/
structure Memory where
  base    : Catalog
  tail    : Catalog
  special : Catalog
deriving DecidableEq, Repr

/-- The character functions `upper` and `isSpace` of 30_encoding.md R73 as finite tables: the characters `upper`
changes, with their images, and the characters that are whitespace. A character in no table is its own upper case
and no whitespace. -/
structure CharTable where
  upperPairs : List (Char × Char)
  spaces     : List Char
deriving DecidableEq, Repr

/-- The configuration (00_scope.md R7, 10_state.md R20 to R28). Nothing is hard-wired: every value is an argument
of every rule (R8). -/
structure Config where
  /-- CAT_BASE, CAT_TAIL, CAT_SPECIAL (R21). -/
  table            : Memory
  /-- PULSE_UNIT_US, microseconds per bit (R23). -/
  pulseUnitUs      : Rat
  /-- CARRIER_FREQUENCY_HZ (R24). -/
  carrierHz        : Rat
  /-- OUTPUT_LINE, opaque (R25). -/
  outputLine       : LineId
  /-- INTER_COMMAND_WAIT, read by the caller only, unit open (R26). -/
  interCommandWait : Rat
  /-- DEBUG, read by no rule (R27). -/
  debug            : Bool
  /-- MARGIN_PER_BIT, read by the caller only, value open (R221). -/
  marginPerBit     : Rat
  /-- `upper` and `isSpace` (R73). -/
  chars            : CharTable
deriving DecidableEq, Repr

/-- FREE VALUE (93_implementation_defined.md U7; notes/assumptions/6.md): the level of the output line after the
n-th answer of the driver, when no waveform is playing. The spec gives none: "in particular after a waveform whose
last pulse is `on` the model must not assume the line goes `off`". -/
opaque Config.freeLineLevel : Nat → Level

end Sys2Proof
end

