-- ==== Sys2Proof/Machine/Operands.lean ====
section
/-! DEFINITION. Operands: the normalisation of names (30_encoding.md R73 to R75), the only read of the Effect
Table and its load at reset (00_scope.md R14, 40_effect_table.md R107), the hit signals and the decode vector
(R76, R77), the timing constants (10_state.md R29), and which configurations are legal (R28). -/

namespace Sys2Proof

/-! ### Characters and names -/

/-- `upper` (R73): the image in the table, else the character itself. -/
def upper (t : CharTable) (c : Char) : Char :=
  match t.upperPairs.find? (fun p => p.1 == c) with
  | some p => p.2
  | none   => c

/-- `isSpace` (R73). -/
def isSpace (t : CharTable) (c : Char) : Bool := t.spaces.contains c

/-- The two laws R73 asks of the character functions: `upper` is idempotent and keeps `isSpace`. They can fail
only at a character the table changes. -/
def charLaws (t : CharTable) : Bool :=
  t.upperPairs.all (fun p => upper t (upper t p.1) == upper t p.1 && isSpace t (upper t p.1) == isSpace t p.1)

/-- The default character functions of R73: ASCII `a`..`z` to `A`..`Z`; space, tab, line feed, vertical tab, form
feed, carriage return. PRESUMED by the spec itself (93_implementation_defined.md G1). -/
def asciiChars : CharTable :=
  { upperPairs :=
      [('a', 'A'), ('b', 'B'), ('c', 'C'), ('d', 'D'), ('e', 'E'), ('f', 'F'), ('g', 'G'), ('h', 'H'), ('i', 'I')] ++
      [('j', 'J'), ('k', 'K'), ('l', 'L'), ('m', 'M'), ('n', 'N'), ('o', 'O'), ('p', 'P'), ('q', 'Q'), ('r', 'R')] ++
      [('s', 'S'), ('t', 'T'), ('u', 'U'), ('v', 'V'), ('w', 'W'), ('x', 'X'), ('y', 'Y'), ('z', 'Z')]
    spaces := [Char.ofNat 0x20, Char.ofNat 0x09, Char.ofNat 0x0A, Char.ofNat 0x0B, Char.ofNat 0x0C, Char.ofNat 0x0D] }

/-- `trim` (R74): without the longest whitespace run at either end; interior whitespace is kept. -/
def trim (t : CharTable) (n : Name) : Name :=
  ((n.dropWhile (isSpace t)).reverse.dropWhile (isSpace t)).reverse

/-- `norm` (R74): trim, then upper case. -/
def norm (t : CharTable) (n : Name) : Name := (trim t n).map (upper t)

/-- A Key is a name that is its own normalisation (R74, R75). -/
def isKey (t : CharTable) (n : Name) : Bool := norm t n == n

/-! ### The Effect Table -/

/-- The entry of a catalog at a key: exact equality of the whole key (40_effect_table.md R105). -/
def Catalog.find : Catalog → Name → Option Bits
  | [], _ => none
  | (k, b) :: rest, key => if k = key then some b else Catalog.find rest key

/-- Canonical form of a catalog: keys strictly rising, so equal maps are equal lists (notes/assumptions/23.md).
An address with no entry reads as not found, which no entry reads as. -/
abbrev Catalog.wf (c : Catalog) : Prop := (c.map Prod.fst).Pairwise (· < ·)

/-- An entry put into a catalog, in key order; an entry at the same key is replaced. -/
def Catalog.insert (key : Name) (bits : Bits) : Catalog → Catalog
  | [] => [(key, bits)]
  | (k, b) :: rest =>
      if key = k then (key, bits) :: rest
      else if key < k then (key, bits) :: (k, b) :: rest
      else (k, b) :: Catalog.insert key bits rest

/-- A catalog without the entry at a key. -/
def Catalog.erase (key : Name) (c : Catalog) : Catalog := c.filter (fun e => !(e.1 == key))

/-- The catalog a selector names (R50, R80). -/
def Memory.catalog (m : Memory) : Cat → Catalog
  | .base    => m.base
  | .tail    => m.tail
  | .special => m.special

/-- The table with one catalog replaced. -/
def Memory.withCatalog (m : Memory) (cat : Cat) (c : Catalog) : Memory :=
  match cat with
  | .base    => { m with base := c }
  | .tail    => { m with tail := c }
  | .special => { m with special := c }

/-- TblRead (00_scope.md R14): the whole entry at (catalog, key), or none; no side effect (R56, R57). -/
def Memory.read (m : Memory) (cat : Cat) (key : Name) : Option Bits := Catalog.find (m.catalog cat) key

/-- One entry loaded by the configuring agent at reset (40_effect_table.md R107). No operation of the block writes
the table (10_state.md R22). -/
def Memory.load (m : Memory) (cat : Cat) (key : Name) (bits : Bits) : Memory :=
  m.withCatalog cat (Catalog.insert key bits (m.catalog cat))

/-- The table with nothing in it. -/
def Memory.empty : Memory := ⟨[], [], []⟩

/-- The table that a list of entries declares (30_encoding.md R92), a later entry replacing an earlier one at the
same address. -/
def Memory.ofEntries (es : List (Cat × Name × Bits)) : Memory :=
  es.foldl (fun m e => m.load e.1 e.2.1 e.2.2) Memory.empty

/-- Canonical form of the whole table. -/
abbrev Memory.wf (m : Memory) : Prop := Catalog.wf m.base ∧ Catalog.wf m.tail ∧ Catalog.wf m.special

/-! ### Legal configurations -/

/-- Every key of a catalog is normalised (R28 (c), R75). -/
def keysNormalised (t : CharTable) (c : Catalog) : Bool := c.all (fun e => isKey t e.1)

/-- A well-formed configuration (10_state.md R28): positive pulse unit and frequency, every key normalised. Clause
(d), every value a finite bit list, holds by type. -/
def Config.legal (c : Config) : Bool :=
  decide (0 < c.pulseUnitUs) && decide (0 < c.carrierHz) && keysNormalised c.chars c.table.base &&
    keysNormalised c.chars c.table.tail && keysNormalised c.chars c.table.special

/-- The configuration's values lie in the types R7, R26, R221 and R73 give them: non-negative durations, lawful
character functions. -/
def Config.typed (c : Config) : Bool :=
  decide (0 ≤ c.interCommandWait) && decide (0 ≤ c.marginPerBit) && charLaws c.chars

/-- A configuration the block can be constructed with (R213; notes/assumptions/15.md). -/
def Config.wf (c : Config) : Bool := c.legal && c.typed

/-- The configuration the model names for reset, where the spec says "supplied; no default" (R41): no entries, the
number 1 for the two values that must be positive, the line identifier 0, the number 0 and false elsewhere, the
default characters of R73. DESIGN CHOICE, unsafe to rest a claim on (notes/assumptions/2.md). -/
def Config.atReset : Config :=
  { table := Memory.empty
    pulseUnitUs := 1
    carrierHz := 1
    outputLine := ⟨0⟩
    interCommandWait := 0
    debug := false
    marginPerBit := 0
    chars := asciiChars }

/-! ### Timing constants -/

/-- PERIOD_US (10_state.md R29, 43_carrier_synthesizer.md R142): an exact rational. -/
def periodUs (c : Config) : Rat := 1000000 / c.carrierHz

/-- HALF_US (R29): half a period, the duty cycle is one half. -/
def halfUs (c : Config) : Rat := periodUs c / 2

/-! ### Reading a name, hit signals, decode vector -/

/-- The table read of a name: `TblRead(cat, norm(name))` (40_effect_table.md R100). -/
def lookup (c : Config) (cat : Cat) (n : Name) : Option Bits := Memory.read c.table cat (norm c.chars n)

/-- HB (R76). -/
def hitBase (c : Config) (main : Name) : Bool := (lookup c .base main).isSome

/-- HS (R76). -/
def hitSpecial (c : Config) (main : Name) : Bool := (lookup c .special main).isSome

/-- TP (R72, R76): provided for every string, the empty one too. -/
def tailPresent (tail : Option Name) : Bool := tail.isSome

/-- HT (R76): false when the tail is absent. -/
def hitTail (c : Config) : Option Name → Bool
  | none   => false
  | some t => (lookup c .tail t).isSome

/-- K = 8*HB + 4*HS + 2*TP + HT (30_encoding.md R77). -/
def decodeVector (c : Config) (main : Name) (tail : Option Name) : Nat :=
  8 * (hitBase c main).toNat + 4 * (hitSpecial c main).toNat + 2 * (tailPresent tail).toNat + (hitTail c tail).toNat

end Sys2Proof
end

