-- ==== Sys2Proof/Machine/State.lean ====
section
/-! DEFINITION. The state of the machine: the configuration, the seven per-command registers, the state at the
driver boundary (10_state.md R20 to R41), and the four ports of the spec's decision D1. Plain data throughout. -/

namespace Sys2Proof.Machine

open Sys2Proof

/-- PHASE (R35, R81), in place of a program counter. -/
inductive Phase where
  | idle
  | compose
  | encode
  | synth
  | transmit
deriving DecidableEq, Repr

/-- The four error kinds (60_exceptions.md R181). An error is its kind, with no payload (R186). -/
inductive Err where
  | unknownEffect
  | invalidTailCode
  | tailCodeNotSupported
  | transmissionFailure
deriving DecidableEq, Repr

/-- STATUS (10_state.md R36, 30_encoding.md R82). -/
inductive Status where
  | ok
  | unknownEffect
  | invalidTailCode
  | tailCodeNotSupported
  | transmissionFailure
deriving DecidableEq, Repr

/-- `Result T` of 00_scope.md R10. -/
inductive Result (α : Type) where
  | ok  (v : α)
  | err (e : Err)
deriving DecidableEq, Repr

/-- The driver's answer to one DrvPlay (R14, R160). -/
inductive DrvAnswer where
  | done
  | failed
deriving DecidableEq, Repr

/-- What is handed to the driver: the line and the whole pulse list (R56, R160). -/
structure Waveform where
  line   : LineId
  pulses : List Pulse
deriving DecidableEq, Repr

/-- One answered call of DrvPlay. On `done` every pulse was played, once, in order; on `failed` none (R161,
R163). -/
structure DrvCall where
  wave   : Waveform
  answer : DrvAnswer
deriving DecidableEq, Repr

/-- What an operation returns to its caller (R13): the result of LOOKUP, COMPOSE, ENCODE, SYNTHESIZE, TRANSMIT,
SEND. -/
inductive Response where
  | found       (r : Option Bits)
  | composed    (r : Result Bits)
  | encoded     (rls : List Nat)
  | synthesized (ps : List Pulse)
  | transmitted (r : Result Unit)
  | sent        (r : Result Unit)
deriving DecidableEq, Repr

/-- The machine has no fault: every error the spec names is a result returned to the caller, after which the block
is usable (60_exceptions.md R180, R181, R192), and a driver that never answers leaves the block waiting in PHASE =
TRANSMIT (44_transmit_and_send.md R164), which is a state. -/
inductive Fault
deriving DecidableEq, Repr

/-- Why the machine gives an input no meaning. Each is safe: the model stops where the hardware would not take the
step either. -/
inductive Refusal where
  /-- Raised by Dispatch only, for an instruction without a meaning; safe. -/
  | notModelled (mnemonic : String)
  /-- Raised by every instruction when the configuration is ill-formed: the block is not constructed (R213); safe. -/
  | illFormedConfig
  /-- Raised by SEND, its classes and TRANSMIT while one is in progress (R169); safe. -/
  | busy
  /-- Raised by a class row of SEND that the decode vector does not select (R78); safe. -/
  | rowNotSelected
  /-- Raised by SYNTHESIZE and TRANSMIT on an operand outside its type (R88, R141, R10); safe. -/
  | illTyped (why : IllTyped)
  /-- Raised when DrvPlay is reached with no driver held for the line (R62, R214, R224); safe. -/
  | noDriverOnLine
  /-- Raised by step for a request that decodes to no instruction (R80, R81); safe. -/
  | undecodable (why : DecodeError)
  /-- Raised by step for a TRANSMIT request of the caller: DrvPlay is reachable only through SEND (R225); safe. -/
  | driverOnlyThroughSend
deriving DecidableEq, Repr

/-- The state. -/
structure State where
  /-- The configuration, written by reset only (R20, R22, R216). -/
  cfg         : Config
  /-- MAIN (R31). -/
  main        : Name
  /-- TAIL (R31). -/
  tail        : Option Name
  /-- CMD (R32). -/
  cmd         : Bits
  /-- RL (R33). -/
  rl          : List Nat
  /-- PULSES (R34). -/
  pulses      : List Pulse
  /-- PHASE (R35). -/
  phase       : Phase
  /-- STATUS (R36). -/
  status      : Status
  /-- Line ownership: the driver handle for OUTPUT_LINE is held (R39, R214). -/
  lineHeld    : Bool
  /-- Waveform in flight: handed to the driver, not yet answered (R39). -/
  inFlight    : Option Waveform
  /-- The output line's level outside a waveform: unspecified (R41, U7), a free value. -/
  lineLevel   : Level
  /-- MODEL'S OWN: the index of the next free value. -/
  freeDraws   : Nat
  /-- HOST INTERFACE, port CMD: the requests the caller, or a test bench, will issue, next first. -/
  requests    : List Issued
  /-- HOST INTERFACE, port DRV: the answers the driver will give, next first (R164). -/
  answers     : List DrvAnswer
  /-- HOST INTERFACE, port RES: the results returned so far, oldest first; read by no operation. -/
  returned    : List Response
  /-- HOST INTERFACE, port DRV: the answered driver calls so far, oldest first; read by no operation. -/
  driverCalls : List DrvCall
deriving DecidableEq, Repr

/-- The state after reset with a configuration (10_state.md R41, 70_reset_and_hazards.md R210, R212). MAIN and
TAIL are unspecified there: the empty name and none are DESIGN CHOICE (notes/assumptions/3.md), as is the line level
(notes/assumptions/6.md). -/
def State.resetWith (c : Config) : State :=
  { cfg := c
    main := []
    tail := none
    cmd := []
    rl := []
    pulses := []
    phase := .idle
    status := .ok
    lineHeld := true
    inFlight := none
    lineLevel := .off
    freeDraws := 0
    requests := []
    answers := []
    returned := []
    driverCalls := [] }

/-- The machine right after reset. -/
def State.reset : State := State.resetWith Config.atReset

end Sys2Proof.Machine
end

