-- ==== Sys2Proof/Machine/Flags.lean ====
section
/-! DEFINITION. The codes of the machine's one flag-like register and of its phase, and how an error, a driver
answer and a status turn into one another (30_encoding.md R81, R82; 10_state.md R36). There are no condition codes
(R36): nothing else is computed here. -/

namespace Sys2Proof.Machine

open Sys2Proof

/-- PHASE code (R81): also the PHASE3 code of the stage operation that runs in the phase. -/
def Phase.code : Phase → Nat
  | .idle     => 0
  | .compose  => 1
  | .encode   => 2
  | .synth    => 3
  | .transmit => 4

/-- STATUS code (R82). -/
def Status.code : Status → Nat
  | .ok                   => 0
  | .unknownEffect        => 1
  | .invalidTailCode      => 2
  | .tailCodeNotSupported => 3
  | .transmissionFailure  => 4

/-- The status an error becomes (R36, R190). -/
def Err.status : Err → Status
  | .unknownEffect        => .unknownEffect
  | .invalidTailCode      => .invalidTailCode
  | .tailCodeNotSupported => .tailCodeNotSupported
  | .transmissionFailure  => .transmissionFailure

/-- The result `finish` returns for a status: `ok ()` for OK, else the error (R165). -/
def Status.result : Status → Result Unit
  | .ok                   => .ok ()
  | .unknownEffect        => .err .unknownEffect
  | .invalidTailCode      => .err .invalidTailCode
  | .tailCodeNotSupported => .err .tailCodeNotSupported
  | .transmissionFailure  => .err .transmissionFailure

/-- The status a driver answer gives a SEND (R165). -/
def DrvAnswer.status : DrvAnswer → Status
  | .done   => .ok
  | .failed => .transmissionFailure

/-- The result of TRANSMIT for a driver answer (R160). -/
def DrvAnswer.result : DrvAnswer → Result Unit
  | .done   => .ok ()
  | .failed => .err .transmissionFailure

end Sys2Proof.Machine
end

