-- ==== Sys2Proof/Machine/Ops.lean ====
section
/-! DEFINITION. The operations every meaning is built from: the guards, returning a result, ending a SEND and
raising an error (the machine's only exception entry, 60_exceptions.md R190), the driver boundary
(44_transmit_and_send.md R160 to R164), and the construction of the block at reset (R213). -/

namespace Sys2Proof.Machine

open Sys2Proof

/-- What one instruction or one step answers. -/
abbrev Out := Host.Outcome State Fault Refusal

/-- The second action at the state the first one leaves; a stop stays a stop. -/
def andThen (o : Out) (k : State → Out) : Out :=
  match o with
  | .next s    => k s
  | .fault f   => .fault f
  | .refused r => .refused r

/-- No instruction has a step on a block whose configuration is ill-formed (70_reset_and_hazards.md R213). -/
def whenLegal (s : State) (k : Out) : Out := if s.cfg.wf then k else .refused .illFormedConfig

/-- The block is ready: PHASE = IDLE and no waveform in flight. -/
def State.ready (s : State) : Bool := decide (s.phase = .idle) && s.inFlight.isNone

/-- A SEND or a driver call is accepted only when no other is in progress (44_transmit_and_send.md R169). -/
def whenReady (s : State) (k : Out) : Out := if s.ready then k else .refused .busy

/-- A result handed to the caller (port RES of D1). -/
def respond (r : Response) (s : State) : State := { s with returned := s.returned ++ [r] }

/-- `finish` (R165): STATUS written; CMD, RL, PULSES discarded; PHASE back to IDLE; the result returned. -/
def finish (st : Status) (s : State) : State :=
  { s with
    status := st
    cmd := []
    rl := []
    pulses := []
    phase := .idle
    returned := s.returned ++ [.sent st.result] }

/-- TAKING AN EXCEPTION: raising an error inside a SEND (60_exceptions.md R190). Nothing is saved, masked or
vectored; the error is recorded in STATUS and returned to the caller. -/
def raise (e : Err) (s : State) : State := finish e.status s

/-- RETURN FROM AN EXCEPTION: there is no return instruction (60_exceptions.md R192). After `raise` the block is
already where a successful SEND leaves it; this is the successful end, the same operation with OK. -/
def complete (s : State) : State := finish .ok s

/-- DrvPlay, the hand-over (00_scope.md R14, 20_memory.md R56): the whole list goes to the one driver of
OUTPUT_LINE, whose handle must be held and which plays one waveform at a time (R39, R62, R214). -/
def handOver (w : Waveform) (s : State) : Out :=
  if s.lineHeld = true ∧ w.line = s.cfg.outputLine ∧ s.inFlight = none then .next { s with inFlight := some w }
  else .refused .noDriverOnLine

/-- The end of the operation that called the driver: a SEND waiting in PHASE = TRANSMIT finishes with the answer's
status (R165); TRANSMIT called alone returns its result and writes no STATUS (R160). -/
def settle (a : DrvAnswer) (s : State) : State :=
  match s.phase with
  | .transmit => finish a.status s
  | _         => respond (.transmitted a.result) s

/-- The driver's answer received: the call is over and recorded, and the line's level is a free value from here on
(U7, notes/assumptions/6.md). -/
def takeAnswer (w : Waveform) (a : DrvAnswer) (rest : List DrvAnswer) (s : State) : State :=
  { s with
    inFlight := none
    answers := rest
    driverCalls := s.driverCalls ++ [⟨w, a⟩]
    lineLevel := Config.freeLineLevel s.freeDraws
    freeDraws := s.freeDraws + 1 }

/-- One step of the driver (R222: a playback is one atomic step): it answers the waveform in flight with the next
of its answers; with no answer the block goes on waiting and nothing changes (R162, R164; U10). -/
def driverStep (s : State) : State :=
  match s.inFlight, s.answers with
  | some w, a :: rest => settle a (takeAnswer w a rest s)
  | _, _              => s

/-- DrvPlay to its end: the hand-over, then the driver's answer if there is one. -/
def play (w : Waveform) (s : State) : Out := andThen (handOver w s) (fun t => .next (driverStep t))

/-- What the output line has seen: the pulse lists of the calls answered `done`, in order (10_state.md R43, R161,
R163). -/
def State.lineSaw (s : State) : List (List Pulse) :=
  (s.driverCalls.filter (fun c => decide (c.answer = .done))).map (fun c => c.wave.pulses)

/-- Reset with a configuration: an ill-formed one is refused and no block is constructed (R210, R213). -/
def State.construct (c : Config) : Out := if c.wf then .next (State.resetWith c) else .refused .illFormedConfig

end Sys2Proof.Machine
end

