-- ==== Sys2Proof/Machine/Lookup.lean ====
section
/-! DEFINITION. LOOKUP, one row per catalog (40_effect_table.md R100 to R107): pure, total, its result the entry or
"not found"; STATUS is not touched. -/

namespace Sys2Proof.Machine

open Sys2Proof

/-- LOOKUP in a catalog (R100): the result of `TblRead(cat, norm(name))` goes to the caller. -/
def lookupIn (cat : Cat) (name : Name) (s : State) : Out :=
  whenLegal s (.next (respond (.found (lookup s.cfg cat name)) s))

/-- LOOKUP.BASE (R100). -/
def execLookupBase (name : Name) (s : State) : Out := lookupIn .base name s

/-- LOOKUP.TAIL (R100). -/
def execLookupTail (name : Name) (s : State) : Out := lookupIn .tail name s

/-- LOOKUP.SPECIAL (R100). -/
def execLookupSpecial (name : Name) (s : State) : Out := lookupIn .special name s

end Sys2Proof.Machine
end

