-- ==== Sys2Proof/Machine/Compose.lean ====
section
/-! DEFINITION. COMPOSE and the composition of each of its six classes (41_command_composer.md). -/

namespace Sys2Proof.Machine

open Sys2Proof

/-- COMPOSE (R110): the order-sensitive chain, base before special, the tail catalog only under a base hit. -/
def compose (c : Config) (main : Name) (tail : Option Name) : Result Bits :=
  match lookup c .base main with
  | some base =>
      match tail with
      | none   => .ok base
      | some t =>
          match lookup c .tail t with
          | some tb => .ok (base ++ tb)
          | none    => .err .invalidTailCode
  | none =>
      match lookup c .special main with
      | some sp =>
          match tail with
          | none   => .ok sp
          | some _ => .err .tailCodeNotSupported
      | none => .err .unknownEffect

/-- The bits of an entry that the decode vector says is there; a row that reads one is executed only when it is
(`sendClass` in Machine/Send.lean). -/
def entryBits (c : Config) (cat : Cat) (n : Name) : Bits := (lookup c cat n).getD []

/-- SEND.BASE (R116): `ok TblRead(BASE, norm(main))`. -/
def composeBase (c : Config) (main : Name) : Result Bits := .ok (entryBits c .base main)

/-- SEND.BASE_TAIL (R117): the base bits followed by the tail bits. -/
def composeBaseTail (c : Config) (main tail : Name) : Result Bits :=
  .ok (entryBits c .base main ++ entryBits c .tail tail)

/-- SEND.BAD_TAIL (R118). -/
def composeBadTail : Result Bits := .err .invalidTailCode

/-- SEND.SPECIAL (R119): `ok TblRead(SPECIAL, norm(main))`. -/
def composeSpecial (c : Config) (main : Name) : Result Bits := .ok (entryBits c .special main)

/-- SEND.SPECIAL_TAIL (R120). -/
def composeSpecialTail : Result Bits := .err .tailCodeNotSupported

/-- SEND.UNKNOWN (R121). -/
def composeUnknown : Result Bits := .err .unknownEffect

/-- COMPOSE called alone (R110, R123, 10_state.md R43): the result goes to the caller, nothing is written. -/
def execCompose (main : Name) (tail : Option Name) (s : State) : Out :=
  whenLegal s (.next (respond (.composed (compose s.cfg main tail)) s))

end Sys2Proof.Machine
end

