-- ==== Sys2Proof/Machine/Encode.lean ====
section
/-! DEFINITION. ENCODE, the run-length encoder (42_run_length_encoder.md). -/

namespace Sys2Proof.Machine

open Sys2Proof

/-- ENCODE by its recursive definition (R130): the counts of maximal runs of equal neighbours, in scan order. -/
def rleEncode : Bits → List Nat
  | []             => []
  | [_]            => [1]
  | b :: c :: rest =>
      match rleEncode (c :: rest) with
      | []      => [1]
      | n :: ns => if b = c then (n + 1) :: ns else 1 :: n :: ns

/-- One more bit of the left-to-right scan of R130: `out` holds the runs so far, the current one first, and `prev`
the bit before. -/
def rleScan : Option Bit → List Nat → Bits → List Nat
  | _, out, []         => out.reverse
  | none, out, b :: bs => rleScan (some b) (1 :: out) bs
  | some p, out, b :: bs =>
      if b = p then
        match out with
        | []      => rleScan (some b) [1] bs
        | n :: ns => rleScan (some b) ((n + 1) :: ns) bs
      else rleScan (some b) (1 :: out) bs

/-- EXPAND (R136): each count as that many equal bits, the value alternating from the first. No operation of the
block; it states what ENCODE keeps. -/
def rleExpand : Bit → List Nat → Bits
  | _, []         => []
  | first, n :: ns => List.replicate n first ++ rleExpand (1 - first) ns

/-- ENCODE called alone (R130, R43): the run lengths go to the caller, nothing is written. -/
def execEncode (bits : Bits) (s : State) : Out :=
  whenLegal s (.next (respond (.encoded (rleEncode bits)) s))

end Sys2Proof.Machine
end

