-- ==== Sys2Proof/Machine/Synthesize.lean ====
section
/-! DEFINITION. SYNTHESIZE, the carrier waveform synthesizer (43_carrier_synthesizer.md). All arithmetic is exact
on rationals (00_scope.md R12); nothing is rounded (R157). -/

namespace Sys2Proof.Machine

open Sys2Proof

/-- The duration of a run of `n` units (R141). -/
def runUs (c : Config) (n : Nat) : Rat := n * c.pulseUnitUs

/-- The number of full carrier cycles in a mark of duration `d` (R143). -/
def cycleCount (c : Config) (d : Rat) : Nat := (d / periodUs c).floor.toNat

/-- What is left of a mark of duration `d` after its full cycles (R145). -/
def remainderUs (c : Config) (d : Rat) : Rat := d - cycleCount c d * periodUs c

/-- `k` full cycles, each an on half and an off half, back to back (R144). -/
def cyclePulses (c : Config) : Nat → List Pulse
  | 0     => []
  | k + 1 => ⟨.on, halfUs c⟩ :: ⟨.off, halfUs c⟩ :: cyclePulses c k

/-- A mark of `n` units (30_encoding.md R86): its full cycles, then the remainder as one on pulse if there is one. -/
def markPulses (c : Config) (n : Nat) : List Pulse :=
  cyclePulses c (cycleCount c (runUs c n)) ++
    (if 0 < remainderUs c (runUs c n) then [⟨.on, remainderUs c (runUs c n)⟩] else [])

/-- A space of `n` units: one off pulse (30_encoding.md R87, R146). -/
def spacePulses (c : Config) (n : Nat) : List Pulse := [⟨.off, runUs c n⟩]

/-- The pulses of a list of runs, alternately marks and spaces (R140, R147); `isMark` says what the first is. -/
def synthFrom (c : Config) : Bool → List Nat → List Pulse
  | _, []           => []
  | true, n :: ns  => markPulses c n ++ synthFrom c false ns
  | false, n :: ns => spacePulses c n ++ synthFrom c true ns

/-- SYNTHESIZE (R140): index 0 is a mark, whatever the bits were (42_run_length_encoder.md R133). -/
def synthesize (c : Config) (rls : List Nat) : List Pulse := synthFrom c true rls

/-- SYNTHESIZE called alone (R140, R43): the pulse list goes to the caller, nothing is written. A run length 0 is
refused (30_encoding.md R88). -/
def execSynthesize (rls : List Nat) (s : State) : Out :=
  whenLegal s
    (match (Instr.synthesize rls).illTyped with
     | some why => .refused (.illTyped why)
     | none     => .next (respond (.synthesized (synthesize s.cfg rls)) s))

end Sys2Proof.Machine
end

