-- ==== Sys2Proof/Machine/Send.lean ====
section
/-! DEFINITION. TRANSMIT, SEND and the six decode classes of SEND (44_transmit_and_send.md, 41_command_composer.md
R116 to R121). SEND is written as its acceptance followed by the work of each phase; `advance` is the work of one
phase, so the phase-by-phase machine and the whole operation are the same text. -/

namespace Sys2Proof.Machine

open Sys2Proof

/-- TRANSMIT called alone (R160): the driver is called once with the list and its answer is the result; STATUS is
not written. One call at a time (R169). PHASE is not written either: that a call alone waits for its answer in IDLE is
DESIGN CHOICE (notes/assumptions/28.md). In the spec's machine only SEND reaches the driver (R225): `receive` in
Machine/Fetch.lean lets a test bench issue this one and not the caller. -/
def execTransmit (pulses : List Pulse) (line : LineId) (s : State) : Out :=
  whenLegal s
    (match (Instr.transmit pulses line).illTyped with
     | some why => .refused (.illTyped why)
     | none     => whenReady s (play ⟨line, pulses⟩ s))

/-- Acceptance of a SEND (R165, 10_state.md R31, R40): the operands latched as supplied, the per-command registers
empty, PHASE = COMPOSE. -/
def accept (main : Name) (tail : Option Name) (s : State) : State :=
  { s with main := main, tail := tail, cmd := [], rl := [], pulses := [], phase := .compose }

/-- The end of phase COMPOSE with the composer's result (R165, R166): an error ends the SEND before anything else
runs; a command goes to CMD. -/
def composed (r : Result Bits) (s : State) : State :=
  match r with
  | .err e   => raise e s
  | .ok bits => { s with cmd := bits, phase := .encode }

/-- Phase COMPOSE: COMPOSE of MAIN and TAIL. -/
def composeStage (s : State) : State := composed (compose s.cfg s.main s.tail) s

/-- Phase ENCODE: RL <- ENCODE(CMD). -/
def encodeStage (s : State) : State := { s with rl := rleEncode s.cmd, phase := .synth }

/-- Phase SYNTH: PULSES <- SYNTHESIZE(RL); an empty waveform ends the SEND with OK and no driver call (R167). -/
def synthStage (s : State) : State :=
  if synthesize s.cfg s.rl = [] then complete { s with pulses := synthesize s.cfg s.rl }
  else { s with pulses := synthesize s.cfg s.rl, phase := .transmit }

/-- The work of one phase (10_state.md R35): with a waveform in flight the driver's, else the stage PHASE names;
in IDLE there is none. -/
def advance (s : State) : Out :=
  match s.inFlight with
  | some _ => .next (driverStep s)
  | none   =>
      match s.phase with
      | .idle     => .next s
      | .compose  => .next (composeStage s)
      | .encode   => .next (encodeStage s)
      | .synth    => .next (synthStage s)
      | .transmit => play ⟨s.cfg.outputLine, s.pulses⟩ s

/-- The work of `k` phases. -/
def advanceBy : Nat → State → Out
  | 0, s     => .next s
  | k + 1, s => andThen (advance s) (advanceBy k)

/-- A SEND from its acceptance, the composer's result given: phase COMPOSE ends with it, then ENCODE, SYNTH and
TRANSMIT run (R165). A SEND that ended early is in IDLE, where `advance` does nothing. -/
def sendBody (main : Name) (tail : Option Name) (r : Result Bits) (s : State) : Out :=
  advanceBy 3 (composed r (accept main tail s))

/-- SEND(main, tail) (R165). -/
def execSend (main : Name) (tail : Option Name) (s : State) : Out :=
  whenLegal s (whenReady s (sendBody main tail (compose s.cfg main tail) s))

/-- The row of a class is the one the decode vector selects (30_encoding.md R78). -/
def classSelected (op : Op) (k : Nat) : Bool :=
  opcodeTable.any (fun r => decide (r.op = op) && r.selects ⟨.k4, k⟩)

/-- A SEND of one decode class (notes/assumptions/8.md): executed when the command's decode vector selects the
class's row, with the composition the class's rule gives. -/
def sendClass (op : Op) (main : Name) (tail : Option Name) (r : Result Bits) (s : State) : Out :=
  whenLegal s (whenReady s
    (if classSelected op (decodeVector s.cfg main tail) then sendBody main tail r s else .refused .rowNotSelected))

/-- SEND.BASE (R116). -/
def execSendBase (main : Name) (s : State) : Out :=
  sendClass .sendBase main none (composeBase s.cfg main) s

/-- SEND.BASE_TAIL (R117). -/
def execSendBaseTail (main tail : Name) (s : State) : Out :=
  sendClass .sendBaseTail main (some tail) (composeBaseTail s.cfg main tail) s

/-- SEND.BAD_TAIL (R118). -/
def execSendBadTail (main tail : Name) (s : State) : Out :=
  sendClass .sendBadTail main (some tail) composeBadTail s

/-- SEND.SPECIAL (R119). -/
def execSendSpecial (main : Name) (s : State) : Out :=
  sendClass .sendSpecial main none (composeSpecial s.cfg main) s

/-- SEND.SPECIAL_TAIL (R120). -/
def execSendSpecialTail (main tail : Name) (s : State) : Out :=
  sendClass .sendSpecialTail main (some tail) composeSpecialTail s

/-- SEND.UNKNOWN (R121). -/
def execSendUnknown (main : Name) (tail : Option Name) (s : State) : Out :=
  sendClass .sendUnknown main tail composeUnknown s

end Sys2Proof.Machine
end

