-- ==== Sys2Proof/Machine/Dispatch.lean ====
section
/-! DEFINITION. One arm per instruction, each one call of its meaning. -/

namespace Sys2Proof.Machine

open Sys2Proof

def exec (i : Instr) (s : State) : Host.Outcome State Fault Refusal :=
  match i with
  | .lookupBase name => Sys2Proof.Machine.execLookupBase name s
  | .lookupTail name => Sys2Proof.Machine.execLookupTail name s
  | .lookupSpecial name => Sys2Proof.Machine.execLookupSpecial name s
  | .send main tail => Sys2Proof.Machine.execSend main tail s
  | .compose main tail => Sys2Proof.Machine.execCompose main tail s
  | .encode bits => Sys2Proof.Machine.execEncode bits s
  | .synthesize rls => Sys2Proof.Machine.execSynthesize rls s
  | .transmit pulses line => Sys2Proof.Machine.execTransmit pulses line s
  | .sendBase main => Sys2Proof.Machine.execSendBase main s
  | .sendBaseTail main tail => Sys2Proof.Machine.execSendBaseTail main tail s
  | .sendBadTail main tail => Sys2Proof.Machine.execSendBadTail main tail s
  | .sendSpecial main => Sys2Proof.Machine.execSendSpecial main s
  | .sendSpecialTail main tail => Sys2Proof.Machine.execSendSpecialTail main tail s
  | .sendUnknown main tail => Sys2Proof.Machine.execSendUnknown main tail s

end Sys2Proof.Machine
end

