-- ==== Sys2Proof/Machine/Fetch.lean ====
section
/-! DEFINITION. What `step` takes its next instruction from, and how one is placed there (notes/assumptions/4.md).
The block fetches nothing (10_state.md R35): the caller issues requests, and the list `requests` stands for it. -/

namespace Sys2Proof.Machine

open Sys2Proof

/-- A catalog in which the empty key is present or absent as asked; every other entry stays, and so does an entry
already at the empty key. -/
def withEmptyKey (present : Bool) (c : Catalog) : Catalog :=
  if present then
    match Catalog.find c [] with
    | some _ => c
    | none   => Catalog.insert [] [] c
  else Catalog.erase [] c

/-- A table under which the empty name has the hits HB, HS, HT of a decode vector (R76, R77). -/
def tableForVector (k : Nat) (m : Memory) : Memory :=
  { base    := withEmptyKey (k.testBit 3) m.base
    tail    := withEmptyKey (k.testBit 0) m.tail
    special := withEmptyKey (k.testBit 2) m.special }

/-- The configuration a code word needs to be the one executed: a decode vector is a function of the command and of
the catalogs, so for a class row the catalogs give the blank command that vector; another word needs nothing. -/
def configForWord (w : CodeWord) (c : Config) : Config :=
  match w.space with
  | .k4 => { c with table := tableForVector w.code c.table }
  | _   => c

/-- A request put where `step` takes its next instruction: first in the list, issued by a test bench, with the block
ready to take it. -/
def placeRequest (q : Request) (s : State) : State :=
  { s with
    cfg := configForWord q.word s.cfg
    phase := .idle
    inFlight := none
    requests := ⟨.bench, q⟩ :: s.requests }

/-- The instruction of a request, or why the block does not take it: it decodes to none, or it is a TRANSMIT that the
caller would issue itself, which the spec's machine makes impossible: "`DrvPlay` is reachable only through `SEND`"
(70_reset_and_hazards.md R225; notes/assumptions/13.md). -/
def receive (q : Issued) : Except Refusal Instr :=
  match decode q.request with
  | .error e => .error (.undecodable e)
  | .ok i    => if q.issuer = .caller ∧ i.op = .transmit then .error .driverOnlyThroughSend else .ok i

/-- The next instruction issued, with the state after it is taken from the list: none when nothing is issued. -/
def fetch (s : State) : Option (Except Refusal Instr × State) :=
  match s.requests with
  | []        => none
  | q :: rest => some (receive q, { s with requests := rest })

end Sys2Proof.Machine
end

