-- ==== Sys2Proof/Machine/Step.lean ====
section
/-! DEFINITION. One step of the whole machine. While a SEND or a driver call is in progress the step is the work of
its phase (the caller is blocked, 44_transmit_and_send.md R162); when the block is ready it runs the caller's next
request, and with none it waits (10_state.md R41). -/

namespace Sys2Proof.Machine

open Sys2Proof

def step (s : State) : Host.Outcome State Fault Refusal :=
  if s.ready then
    match fetch s with
    | none              => .next s
    | some (.ok i, t)   => exec i t
    | some (.error r, _) => .refused r
  else whenLegal s (advance s)

/-- The state with a table word where step takes its next instruction: the request of that word with operands of
zeros, and for a class row of SEND the catalogs that make it the selected one (notes/assumptions/4.md). -/
def State.withFetchWord (s : State) (nbits w : Nat) : State := placeRequest (requestOfTableWord nbits w) s

end Sys2Proof.Machine
end

