-- ==== Sys2Proof/Machine/Caller.lean ====
section
/-! DEFINITION. What the spec says of the caller and constrains the block's inputs with: the textual form of a
command (30_encoding.md R90) and the delay owed between commands (70_reset_and_hazards.md R221). Neither is an
operation of the block. -/

namespace Sys2Proof.Machine

open Sys2Proof

/-- The tokens of a text, separated by whitespace; `cur` is the token being read, last character first. -/
def tokensFrom (t : CharTable) (cur : Name) : Name → List Name
  | []      => if cur = [] then [] else [cur.reverse]
  | c :: cs =>
      if isSpace t c then
        if cur = [] then tokensFrom t [] cs else cur.reverse :: tokensFrom t [] cs
      else tokensFrom t (c :: cur) cs

/-- `EFFECT [TAIL_CODE]` (R90): one token is a main effect, two are a main effect and a tail code. The spec gives
no command for another number of tokens (notes/assumptions/25.md). -/
def parseCommand (t : CharTable) (text : Name) : Option (Name × Option Name) :=
  match tokensFrom t [] text with
  | [m]     => some (m, none)
  | [m, tc] => some (m, some tc)
  | _       => none

/-- The delay the caller owes before the next SEND, after a SEND with result `r` whose command had `n` bits (R221):
INTER_COMMAND_WAIT + n * MARGIN_PER_BIT after a command that was transmitted, nothing otherwise. -/
def owedDelay (c : Config) (r : Result Unit) (n : Nat) : Option Rat :=
  match r with
  | .ok _  => if n = 0 then none else some (c.interCommandWait + n * c.marginPerBit)
  | .err _ => none

end Sys2Proof.Machine
end

