-- ==== Sys2Proof/Safety.lean ====
section
/-! DEFINITION. What a good state is, in the terms claims use: the invariant every step keeps. -/

namespace Sys2Proof.Machine

open Sys2Proof

/-- What each phase leaves in the per-command registers (10_state.md R32 to R34, R40): empty before their stage has
written them and after the SEND has ended, the earlier stage's result in between. -/
def State.registersFit (s : State) : Prop :=
  match s.phase with
  | .idle     => s.cmd = [] ∧ s.rl = [] ∧ s.pulses = []
  | .compose  => s.cmd = [] ∧ s.rl = [] ∧ s.pulses = []
  | .encode   => compose s.cfg s.main s.tail = .ok s.cmd ∧ s.rl = [] ∧ s.pulses = []
  | .synth    => compose s.cfg s.main s.tail = .ok s.cmd ∧ s.rl = rleEncode s.cmd ∧ s.pulses = []
  | .transmit =>
      compose s.cfg s.main s.tail = .ok s.cmd ∧ s.cmd ≠ [] ∧ s.rl = rleEncode s.cmd ∧
        s.pulses = synthesize s.cfg s.rl

/-- A waveform is in flight only for a SEND in PHASE = TRANSMIT, where it is PULSES, or for TRANSMIT called alone,
and always on OUTPUT_LINE (R39, R160, R165). -/
def State.flightFits (s : State) : Prop :=
  ∀ w, s.inFlight = some w →
    w.line = s.cfg.outputLine ∧ (s.phase = .idle ∨ (s.phase = .transmit ∧ w.pulses = s.pulses))

/-- The invariant: a well-formed configuration (R213), the table in canonical form, the line's driver held (R39),
the registers and the waveform in flight as the phase has them. -/
structure State.Inv (s : State) : Prop where
  legal     : s.cfg.wf = true
  canonical : s.cfg.table.wf
  held      : s.lineHeld = true
  registers : s.registersFit
  flight    : s.flightFits

/-- The spec's machine, without a test bench (60_exceptions.md R195, 70_reset_and_hazards.md R225): the caller issues
every request, and what is in flight is a SEND's. -/
structure State.CallersOnly (s : State) : Prop where
  issued : ∀ q ∈ s.requests, q.issuer = .caller
  flight : s.inFlight ≠ none → s.phase = .transmit

/-- The waveform of the command that MAIN and TAIL name, on OUTPUT_LINE (44_transmit_and_send.md R165, R170). -/
def State.PlaysItsCommand (s : State) (w : Waveform) : Prop :=
  ∃ b, compose s.cfg s.main s.tail = .ok b ∧ b ≠ [] ∧ w = ⟨s.cfg.outputLine, synthesize s.cfg (rleEncode b)⟩

end Sys2Proof.Machine
end

