-- ==== Sys2Proof/Certificates/Slice0/Obligations.lean ====
section
/-! DEFINITION. The statements for the provers, one `def Obligations.<Name> : Prop` each, file by file of the spec. -/

open Sys2Proof Sys2Proof.Machine

/-! ### Words the statements share -/

/-- The state in which a SEND(m, t) that called no driver has ended with a status: operands latched, STATUS
written, CMD, RL, PULSES empty, PHASE = IDLE, the result returned, everything else as before. -/
def Sys2Proof.Machine.sendEnded (m : Name) (t : Option Name) (st : Status) (s : State) : State :=
  { s with
    main := m
    tail := t
    cmd := []
    rl := []
    pulses := []
    phase := .idle
    status := st
    returned := s.returned ++ [.sent st.result] }

/-- The state in which a SEND(m, t) that called the driver once with `ps` on OUTPUT_LINE and was answered `a` has
ended: as `sendEnded`, with the answer consumed, the call recorded and the line's level a free value. -/
def Sys2Proof.Machine.sendPlayed (m : Name) (t : Option Name) (ps : List Pulse) (a : DrvAnswer) (rest : List DrvAnswer)
    (s : State) : State :=
  { sendEnded m t a.status s with
    answers := rest
    driverCalls := s.driverCalls ++ [⟨⟨s.cfg.outputLine, ps⟩, a⟩]
    lineLevel := Config.freeLineLevel s.freeDraws
    freeDraws := s.freeDraws + 1 }

/-- The state in which a SEND(m, t) waits for the driver: PHASE = TRANSMIT, the waveform in flight. -/
def Sys2Proof.Machine.sendWaiting (m : Name) (t : Option Name) (bits : Bits) (s : State) : State :=
  { s with
    main := m
    tail := t
    cmd := bits
    rl := rleEncode bits
    pulses := synthesize s.cfg (rleEncode bits)
    phase := .transmit
    inFlight := some ⟨s.cfg.outputLine, synthesize s.cfg (rleEncode bits)⟩ }

/-- The summed duration of a pulse list, in microseconds. -/
def Sys2Proof.Machine.totalUs (ps : List Pulse) : Rat := (ps.map Pulse.dur).sum

/-- The summed duration of the pulses of one level. -/
def Sys2Proof.Machine.levelUs (l : Level) (ps : List Pulse) : Rat :=
  totalUs (ps.filter (fun p => decide (p.level = l)))

/-- How many driver calls a state has made, the one in flight included. -/
def Sys2Proof.Machine.callsMade (s : State) : Nat := s.driverCalls.length + (if s.inFlight.isSome then 1 else 0)

/-- `k` steps, a stop staying a stop. -/
def Sys2Proof.Machine.steps : Nat → State → Out
  | 0, s     => .next s
  | k + 1, s => andThen (step s) (steps k)

/-! ### 30_encoding.md: decoding -/

/-- R78, R80, R81: words written out from the three decode spaces decode to their instructions. That a request names
its decode space and that TP must agree with the tail are the model's (notes/assumptions 9, 10). -/
def Obligations.SampleWordsDecode : Prop :=
  decode ⟨⟨.cat2, 0b01⟩, .name ['F']⟩ = .ok (.lookupTail ['F']) ∧
  decode ⟨⟨.phase3, 0b000⟩, .command ['R'] none⟩ = .ok (.send ['R'] none) ∧
  decode ⟨⟨.phase3, 0b011⟩, .runs [3, 2, 1]⟩ = .ok (.synthesize [3, 2, 1]) ∧
  decode ⟨⟨.k4, 0b1100⟩, .command ['B'] none⟩ = .ok (.sendBase ['B']) ∧
  decode ⟨⟨.k4, 0b1111⟩, .command ['B'] (some ['F'])⟩ = .ok (.sendBaseTail ['B'] ['F']) ∧
  decode ⟨⟨.k4, 0b0111⟩, .command ['O'] (some ['F'])⟩ = .ok (.sendSpecialTail ['O'] ['F']) ∧
  decode ⟨⟨.k4, 0b0011⟩, .command ['X'] (some ['F'])⟩ = .ok (.sendUnknown ['X'] (some ['F']))

/-- R79, R80, R81: every decode vector selects exactly one class row; the selector 3 and the phase codes 5, 6, 7
select none. -/
def Obligations.EveryVectorSelectsOneRow : Prop :=
  (∀ k, k < 16 → ∃ r ∈ opcodeTable, r.selects ⟨.k4, k⟩ = true ∧
    ∀ r' ∈ opcodeTable, r'.selects ⟨.k4, k⟩ = true → r' = r) ∧
  (∀ o, decode ⟨⟨.cat2, 3⟩, o⟩ = .error .unallocated) ∧
  (∀ p o, 5 ≤ p → p < 8 → decode ⟨⟨.phase3, p⟩, o⟩ = .error .unallocated)

/-- Decoding the encoding of a well-formed instruction gives it back, every operand at every value. -/
def Obligations.DecodeEncodeRoundTrip : Prop :=
  ∀ i : Instr, i.wf = true → decode (encode i) = .ok i

/-- What decodes to an instruction is its encoding up to the row's don't-care bits: the same decode space, the same
operands, and a code that the same row selects. -/
def Obligations.EncodeDecodeRoundTrip : Prop :=
  ∀ q i, decode q = .ok i →
    i.wf = true ∧ (encode i).operands = q.operands ∧ (encode i).word.space = q.word.space ∧
    ∃ r ∈ opcodeTable, r.op = i.op ∧ r.selects q.word = true ∧ r.selects (encode i).word = true

/-- R81, R82: the phase codes are the PHASE3 codes of the stage operations, the status codes 0 to 4 in the order of
the taxonomy. The numbers are the spec's own decision D7. -/
def Obligations.PhaseAndStatusCodes : Prop :=
  (Phase.idle.code = 0 ∧ Phase.compose.code = 1 ∧ Phase.encode.code = 2 ∧ Phase.synth.code = 3 ∧
    Phase.transmit.code = 4) ∧
  (decodeOp ⟨.phase3, Phase.idle.code⟩ = .ok .send ∧ decodeOp ⟨.phase3, Phase.compose.code⟩ = .ok .compose ∧
    decodeOp ⟨.phase3, Phase.encode.code⟩ = .ok .encode ∧ decodeOp ⟨.phase3, Phase.synth.code⟩ = .ok .synthesize ∧
    decodeOp ⟨.phase3, Phase.transmit.code⟩ = .ok .transmit) ∧
  (Status.ok.code = 0 ∧ Err.unknownEffect.status.code = 1 ∧ Err.invalidTailCode.status.code = 2 ∧
    Err.tailCodeNotSupported.status.code = 3 ∧ Err.transmissionFailure.status.code = 4)

/-! ### 30_encoding.md: normalisation -/

/-- R74: `norm` is trim then upper case; trim takes whitespace off both ends, all of it and nothing else; trimming
and upper-casing commute; `norm` is idempotent. -/
def Obligations.NormalisationLaws : Prop :=
  ∀ (t : CharTable) (n : Name), charLaws t = true →
    norm t n = (trim t n).map (upper t) ∧
    (∃ pre post : Name, n = pre ++ trim t n ++ post ∧ (∀ c ∈ pre, isSpace t c = true) ∧
      ∀ c ∈ post, isSpace t c = true) ∧
    (∀ c, (trim t n).head? = some c → isSpace t c = false) ∧
    (∀ c, (trim t n).getLast? = some c → isSpace t c = false) ∧
    trim t (n.map (upper t)) = (trim t n).map (upper t) ∧
    norm t (norm t n) = norm t n

/-- R111, R105: a table read and a composition see a name only through its normalisation. -/
def Obligations.NamesMatterOnlyNormalised : Prop :=
  ∀ (c : Config) (cat : Cat) (m : Name) (t : Option Name), c.wf = true →
    lookup c cat m = lookup c cat (norm c.chars m) ∧
    compose c m t = compose c (norm c.chars m) (t.map (norm c.chars))

/-- R72, R106: an empty tail string is provided, not absent: under a base hit it is looked up as the empty key and
ends the command when there is none. That it is provided is the spec's decision D5 (notes/assumptions 20). -/
def Obligations.EmptyTailIsProvided : Prop :=
  ∀ (s : State) (m : Name) (b : Bits), s.cfg.wf = true → lookup s.cfg .base m = some b →
    (s.cfg.table.read .tail [] = none →
      exec (.compose m (some [])) s =
        .next { s with returned := s.returned ++ [.composed (.err .invalidTailCode)] }) ∧
    (∀ tb, s.cfg.table.read .tail [] = some tb →
      exec (.compose m (some [])) s = .next { s with returned := s.returned ++ [.composed (.ok (b ++ tb))] })

/-! ### 20_memory.md, 40_effect_table.md: the Effect Table -/

/-- The load of one entry at reset is read back at its address and changes no other address. That a later entry
replaces an earlier one is the model's choice (notes/assumptions 23). -/
def Obligations.LoadedEntryIsReadBack : Prop :=
  ∀ (m : Memory) (cat cat' : Cat) (key key' : Name) (bits : Bits),
    (m.load cat key bits).read cat key = some bits ∧
    (cat' ≠ cat ∨ key' ≠ key → (m.load cat key bits).read cat' key' = m.read cat' key')

/-- The load keeps the table's canonical form, and two tables in canonical form with the same reads are equal. The
form is the model's choice (notes/assumptions 23). -/
def Obligations.CanonicalTablesAreTheirReads : Prop :=
  (∀ (m : Memory) (cat : Cat) (key : Name) (bits : Bits), m.wf → (m.load cat key bits).wf) ∧
  (∀ m m' : Memory, m.wf → m'.wf → (∀ cat key, m.read cat key = m'.read cat key) → m = m')

/-- R102: LOOKUP answers for every catalog and name with the entry at the normalised key, or not found, and writes
nothing: only the result handed to the caller is new. -/
def Obligations.LookupReturnsStoredEntry : Prop :=
  ∀ (s : State) (n : Name), s.cfg.wf = true →
    exec (.lookupBase n) s =
      .next { s with returned := s.returned ++ [.found (s.cfg.table.read .base (norm s.cfg.chars n))] } ∧
    exec (.lookupTail n) s =
      .next { s with returned := s.returned ++ [.found (s.cfg.table.read .tail (norm s.cfg.chars n))] } ∧
    exec (.lookupSpecial n) s =
      .next { s with returned := s.returned ++ [.found (s.cfg.table.read .special (norm s.cfg.chars n))] }

/-! ### 41_command_composer.md -/

/-- R113, R114: COMPOSE called alone completes in every case of the chain and writes nothing: base before special,
the tail catalog consulted only under a base hit, a provided tail an error under a special hit whatever it is. -/
def Obligations.ComposeFollowsTheChain : Prop :=
  ∀ (s : State) (m t : Name), s.cfg.wf = true →
    let answers := fun (tail : Option Name) (r : Result Bits) =>
      exec (.compose m tail) s = .next { s with returned := s.returned ++ [.composed r] }
    (∀ b, lookup s.cfg .base m = some b →
      answers none (.ok b) ∧
      (∀ tb, lookup s.cfg .tail t = some tb → answers (some t) (.ok (b ++ tb))) ∧
      (lookup s.cfg .tail t = none → answers (some t) (.err .invalidTailCode))) ∧
    (lookup s.cfg .base m = none →
      (∀ sp, lookup s.cfg .special m = some sp →
        answers none (.ok sp) ∧ answers (some t) (.err .tailCodeNotSupported)) ∧
      (lookup s.cfg .special m = none →
        answers none (.err .unknownEffect) ∧ answers (some t) (.err .unknownEffect)))

/-- R115: with a base and a tail entry the command is the base bits followed by the tail bits, position by
position, and nothing else. -/
def Obligations.ConcatenationKeepsBothParts : Prop :=
  ∀ (c : Config) (m t : Name) (b tb : Bits), lookup c .base m = some b → lookup c .tail t = some tb →
    ∃ r, compose c m (some t) = .ok r ∧ r.length = b.length + tb.length ∧
      (∀ i, i < b.length → r[i]? = b[i]?) ∧ ∀ j, j < tb.length → r[b.length + j]? = tb[j]?

/-- R76 to R79: for every command exactly one class row is selected by its decode vector, and COMPOSE gives that
class's composition. -/
def Obligations.VectorDecidesTheComposition : Prop :=
  ∀ (c : Config) (m : Name) (t : Option Name),
    let k := decodeVector c m t
    (∃ o, classSelected o k = true ∧ ∀ o', classSelected o' k = true → o' = o) ∧
    (classSelected .sendBase k = true → t = none ∧ compose c m t = composeBase c m) ∧
    (classSelected .sendBaseTail k = true → ∃ u, t = some u ∧ compose c m t = composeBaseTail c m u) ∧
    (classSelected .sendBadTail k = true → t.isSome ∧ compose c m t = composeBadTail) ∧
    (classSelected .sendSpecial k = true → t = none ∧ compose c m t = composeSpecial c m) ∧
    (classSelected .sendSpecialTail k = true → t.isSome ∧ compose c m t = composeSpecialTail) ∧
    (classSelected .sendUnknown k = true → compose c m t = composeUnknown)

/-! ### 42_run_length_encoder.md -/

/-- R130, R134: ENCODE called alone completes on every bit sequence, its result is given by the left-to-right scan
and equally by the recursive definition, and it writes nothing. -/
def Obligations.EncodeIsTheScan : Prop :=
  (∀ (s : State) (bits : Bits), s.cfg.wf = true →
    exec (.encode bits) s = .next { s with returned := s.returned ++ [.encoded (rleScan none [] bits)] }) ∧
  rleScan none [] [] = [] ∧
  (∀ b : Bit, rleScan none [] [b] = [1]) ∧
  (∀ (b c : Bit) (rest : Bits) (n : Nat) (ns : List Nat), rleScan none [] (c :: rest) = n :: ns →
    rleScan none [] (b :: c :: rest) = if b = c then (n + 1) :: ns else 1 :: n :: ns)

/-- R132: every count is positive, the counts sum to the length, and their number is one more than the number of
places where neighbours differ. -/
def Obligations.RunLengthInvariants : Prop :=
  ∀ bits : Bits,
    (∀ n ∈ rleEncode bits, 1 ≤ n) ∧ (rleEncode bits).sum = bits.length ∧
    (rleEncode bits).length ≤ bits.length ∧
    ((rleEncode bits).length = bits.length ↔ bits.IsChain (· ≠ ·)) ∧
    (bits ≠ [] → (rleEncode bits).length =
      1 + ((List.range (bits.length - 1)).filter (fun k => decide (bits[k]? ≠ bits[k + 1]?))).length)

/-- R136: re-expanding the run lengths from the first bit gives the bits back; an empty sequence comes back empty
from either value. -/
def Obligations.ExpansionRestoresTheBits : Prop :=
  (∀ (b : Bit) (rest : Bits), rleExpand b (rleEncode (b :: rest)) = b :: rest) ∧
  (∀ first : Bit, rleExpand first (rleEncode []) = [])

/-- R137, R133: a bit sequence and its complement have the same run lengths, so the same waveform. -/
def Obligations.ComplementHasTheSameWaveform : Prop :=
  ∀ (c : Config) (bits : Bits),
    rleEncode (bits.map (fun b => 1 - b)) = rleEncode bits ∧
    synthesize c (rleEncode (bits.map (fun b => 1 - b))) = synthesize c (rleEncode bits)

/-- R135: a run of any length is one count, and a run that spans two parts of a command is one run. -/
def Obligations.RunsAreNeverSplit : Prop :=
  (∀ (b : Bit) (n : Nat), 0 < n → rleEncode (List.replicate n b) = [n]) ∧
  (∀ (xs ys : Bits) (b : Bit), ∃ pre n k post,
    rleEncode (xs ++ [b]) = pre ++ [n] ∧ rleEncode (b :: ys) = k :: post ∧
    rleEncode ((xs ++ [b]) ++ (b :: ys)) = pre ++ (n + k) :: post)

/-! ### 43_carrier_synthesizer.md -/

/-- R140 to R146: SYNTHESIZE called alone completes on every list of positive counts and writes nothing; the run at
an even index is its full carrier cycles and the remainder, the run at an odd index one off pulse, every duration an
exact rational. -/
def Obligations.SynthesizeByRunIndex : Prop :=
  ∀ (s : State) (rls : List Nat), s.cfg.wf = true → (∀ n ∈ rls, 0 < n) →
    exec (.synthesize rls) s =
      .next { s with returned := s.returned ++ [.synthesized (rls.zipIdx.flatMap (fun x =>
        let d : Rat := x.1 * s.cfg.pulseUnitUs
        let period : Rat := 1000000 / s.cfg.carrierHz
        let c : Nat := ⌊d / period⌋₊
        let r : Rat := d - c * period
        if x.2 % 2 = 0 then
          (List.replicate c [Pulse.mk .on (period / 2), Pulse.mk .off (period / 2)]).flatten ++
            (if 0 < r then [Pulse.mk .on r] else [])
        else [Pulse.mk .off d]))] }

/-- R143, R145: the cycle count is the unique natural with c * PERIOD <= d < (c + 1) * PERIOD, and the remainder
lies from 0 to below one period. -/
def Obligations.CycleCountIsTheFloor : Prop :=
  ∀ (c : Config) (d : Rat), c.wf = true → 0 ≤ d →
    (∀ k : Nat, k = cycleCount c d ↔ (k * periodUs c ≤ d ∧ d < (k + 1) * periodUs c)) ∧
    0 ≤ remainderUs c d ∧ remainderUs c d < periodUs c

/-- R148: the pulses of a mark last exactly its nominal duration, and so do those of every leading part of a
waveform: its pulses come first and last the sum of its counts times the pulse unit. -/
def Obligations.DurationIsConserved : Prop :=
  ∀ c : Config, c.wf = true →
    (∀ n, totalUs (markPulses c n) = n * c.pulseUnitUs ∧ totalUs (spacePulses c n) = n * c.pulseUnitUs) ∧
    (∀ rls, totalUs (synthesize c rls) = rls.sum * c.pulseUnitUs) ∧
    (∀ xs ys, ∃ later, synthesize c (xs ++ ys) = synthesize c xs ++ later)

/-- R147, R149: every pulse of a waveform of positive counts has a positive duration, and a mark of a positive
count has at least one pulse. -/
def Obligations.PulsesArePositive : Prop :=
  ∀ c : Config, c.wf = true →
    (∀ rls, (∀ n ∈ rls, 0 < n) → ∀ p ∈ synthesize c rls, 0 < p.dur) ∧
    (∀ n, 0 < n → synthesize c [n] ≠ [])

/-- R152: the pulse count, run by run, and its bound with a ceiling for each mark. -/
def Obligations.PulseCountFormula : Prop :=
  ∀ (c : Config) (rls : List Nat), c.wf = true →
    (synthesize c rls).length = (rls.zipIdx.map (fun x =>
      if x.2 % 2 = 0 then 2 * cycleCount c (runUs c x.1) + (if 0 < remainderUs c (runUs c x.1) then 1 else 0)
      else 1)).sum ∧
    (synthesize c rls).length ≤ (rls.zipIdx.map (fun x =>
      if x.2 % 2 = 0 then ⌈runUs c x.1 / halfUs c⌉₊ else 1)).sum

/-- R153: within a mark the line is on for c * HALF + r and off for c * HALF; the on-time is from half the mark to
all of it. -/
def Obligations.MarkOnTime : Prop :=
  ∀ (c : Config) (n : Nat), c.wf = true →
    let d := runUs c n
    levelUs .on (markPulses c n) = cycleCount c d * halfUs c + remainderUs c d ∧
    levelUs .off (markPulses c n) = cycleCount c d * halfUs c ∧
    d / 2 ≤ levelUs .on (markPulses c n) ∧ levelUs .on (markPulses c n) ≤ d

/-- R150, R151: a mark shorter than one period is one on pulse; a mark of a whole number of periods is that many
cycles and ends off; a following space keeps its own off pulse. -/
def Obligations.ShortAndWholeMarks : Prop :=
  ∀ (c : Config) (n : Nat), c.wf = true → 0 < n →
    (runUs c n < periodUs c → synthesize c [n] = [⟨.on, runUs c n⟩]) ∧
    (∀ k : Nat, runUs c n = k * periodUs c →
      synthesize c [n] = (List.replicate k [Pulse.mk .on (halfUs c), Pulse.mk .off (halfUs c)]).flatten ∧
      (∀ m, synthesize c [n, m] =
        (List.replicate k [Pulse.mk .on (halfUs c), Pulse.mk .off (halfUs c)]).flatten ++ [⟨.off, runUs c m⟩]))

/-- R155: a waveform begins on, with a full half period or the whole short mark; its last pulse is the trailing
space, or the last mark's remainder, or its last off half. -/
def Obligations.WaveformEnds : Prop :=
  ∀ (c : Config) (rls : List Nat) (n : Nat), c.wf = true → 0 < n →
    (synthesize c (n :: rls)).head? =
      some (if 0 < cycleCount c (runUs c n) then ⟨.on, halfUs c⟩ else ⟨.on, runUs c n⟩) ∧
    (synthesize c (rls ++ [n])).getLast? =
      some (if rls.length % 2 = 1 then ⟨.off, runUs c n⟩
        else if 0 < remainderUs c (runUs c n) then ⟨.on, remainderUs c (runUs c n)⟩ else ⟨.off, halfUs c⟩)

/-- R156, R231: the waveform of a command of n bits lasts exactly n pulse units, and it is empty exactly when the
command is. -/
def Obligations.WaveformLastsTheBits : Prop :=
  ∀ (c : Config) (bits : Bits), c.wf = true →
    totalUs (synthesize c (rleEncode bits)) = bits.length * c.pulseUnitUs ∧
    (synthesize c (rleEncode bits) = [] ↔ bits = [])

/-- R158: the source's scenario at a pulse unit of 700 and a carrier of 38000, exact. -/
def Obligations.SourceScenario : Prop :=
  ∀ c : Config, c.pulseUnitUs = 700 → c.carrierHz = 38000 →
    rleEncode [1, 1, 1, 0, 0, 1] = [3, 2, 1] ∧
    synthesize c [3, 2, 1] =
      (List.replicate 79 [Pulse.mk .on (250 / 19), Pulse.mk .off (250 / 19)]).flatten ++ [⟨.on, 400 / 19⟩] ++
      [⟨.off, 1400⟩] ++
      (List.replicate 26 [Pulse.mk .on (250 / 19), Pulse.mk .off (250 / 19)]).flatten ++ [⟨.on, 300 / 19⟩] ∧
    (synthesize c [3, 2, 1]).length = 213 ∧ totalUs (synthesize c [3, 2, 1]) = 4200 ∧
    levelUs .on (synthesize c [3, 2, 1]) = 26950 / 19

/-! ### 44_transmit_and_send.md: TRANSMIT -/

/-- R160, R163: TRANSMIT called alone hands the list to the driver once and returns its answer: on `done` the line
has seen the list, on `failed` nothing; STATUS and every register stay. That it runs only on a ready block, and that
failed means no pulse, are the model's readings (notes/assumptions 13, 19). The line's level after an answer is a
free value (notes/assumptions 6). -/
def Obligations.TransmitReturnsTheAnswer : Prop :=
  ∀ (s : State) (ps : List Pulse) (a : DrvAnswer) (rest : List DrvAnswer), s.cfg.wf = true → s.phase = .idle →
    s.inFlight = none → s.lineHeld = true → (∀ p ∈ ps, 0 ≤ p.dur) → s.answers = a :: rest →
    ∃ u, exec (.transmit ps s.cfg.outputLine) s = .next u ∧
      u = { s with
        answers := rest
        driverCalls := s.driverCalls ++ [⟨⟨s.cfg.outputLine, ps⟩, a⟩]
        returned := s.returned ++ [.transmitted (if a = .done then .ok () else .err .transmissionFailure)]
        lineLevel := Config.freeLineLevel s.freeDraws
        freeDraws := s.freeDraws + 1 } ∧
      u.lineSaw = s.lineSaw ++ (if a = .done then [ps] else [])

/-- R162, R164: with no answer yet, TRANSMIT called alone leaves the waveform in flight; the machine then waits, and
the answer, when there is one, ends the call. The list of answers is the model's (notes/assumptions 5). That PHASE
stays IDLE meanwhile is the model's choice (notes/assumptions 28). -/
def Obligations.TransmitWaitsForTheDriver : Prop :=
  ∀ (s : State) (ps : List Pulse), s.cfg.wf = true → s.phase = .idle → s.inFlight = none → s.lineHeld = true →
    (∀ p ∈ ps, 0 ≤ p.dur) → s.answers = [] →
    let waiting := { s with inFlight := some ⟨s.cfg.outputLine, ps⟩ }
    exec (.transmit ps s.cfg.outputLine) s = .next waiting ∧ step waiting = .next waiting ∧
    ∀ a rest, step { waiting with answers := a :: rest } = exec (.transmit ps s.cfg.outputLine) { s with answers := a :: rest }

/-- R62, R88, R141, R169: where SYNTHESIZE, TRANSMIT and SEND stop: a run length 0, a negative duration, a TRANSMIT
on a line with no driver held or while another operation is in progress, a SEND that reaches the driver call with no
driver held. These are the model's readings (notes/assumptions 13, 16, 17, 24). -/
def Obligations.WhereOperationsStop : Prop :=
  ∀ s : State, s.cfg.wf = true →
    (∀ rls : List Nat, 0 ∈ rls → exec (.synthesize rls) s = .refused (.illTyped .zeroRunLength)) ∧
    (∀ (ps : List Pulse) (l : LineId), (∃ p ∈ ps, p.dur < 0) →
      exec (.transmit ps l) s = .refused (.illTyped .negativeDuration)) ∧
    (∀ (ps : List Pulse) (l : LineId), (∀ p ∈ ps, 0 ≤ p.dur) → s.phase = .idle → s.inFlight = none →
      l ≠ s.cfg.outputLine ∨ s.lineHeld = false → exec (.transmit ps l) s = .refused .noDriverOnLine) ∧
    (∀ (ps : List Pulse) (l : LineId), (∀ p ∈ ps, 0 ≤ p.dur) → (s.phase ≠ .idle ∨ s.inFlight ≠ none) →
      exec (.transmit ps l) s = .refused .busy) ∧
    (∀ (m : Name) (t : Option Name) (b : Bits), s.phase = .idle → s.inFlight = none → s.lineHeld = false →
      compose s.cfg m t = .ok b → b ≠ [] → exec (.send m t) s = .refused .noDriverOnLine)

/-! ### 44_transmit_and_send.md: SEND -/

/-- R166, R190: a SEND whose composition fails ends with that error: STATUS written, CMD, RL, PULSES cleared,
PHASE = IDLE, the error returned, the driver not called, everything else as before. -/
def Obligations.CompositionErrorEndsSend : Prop :=
  ∀ (s : State) (m : Name) (t : Option Name) (e : Err), s.cfg.wf = true → s.phase = .idle → s.inFlight = none →
    compose s.cfg m t = .err e → exec (.send m t) s = .next (sendEnded m t e.status s)

/-- R167: a SEND whose composed command is empty ends with OK; the driver is not called. That the driver is not
called is the spec's decision D9 (notes/assumptions 18). -/
def Obligations.EmptyCommandIsNoOp : Prop :=
  ∀ (s : State) (m : Name) (t : Option Name), s.cfg.wf = true → s.phase = .idle → s.inFlight = none →
    compose s.cfg m t = .ok [] → exec (.send m t) s = .next (sendEnded m t .ok s)

/-- R165, R170: a SEND with a non-empty command calls the driver once with SYNTHESIZE(ENCODE(command)) on
OUTPUT_LINE and ends with the driver's answer, `done` as OK and `failed` as TransmissionFailure. The line's level
after an answer is a free value (notes/assumptions 6). -/
def Obligations.SendPlaysTheCommand : Prop :=
  ∀ (s : State) (m : Name) (t : Option Name) (b : Bits) (a : DrvAnswer) (rest : List DrvAnswer),
    s.cfg.wf = true → s.phase = .idle → s.inFlight = none → s.lineHeld = true → s.answers = a :: rest →
    compose s.cfg m t = .ok b → b ≠ [] →
    exec (.send m t) s = .next (sendPlayed m t (synthesize s.cfg (rleEncode b)) a rest s) ∧
    (sendPlayed m t (synthesize s.cfg (rleEncode b)) a rest s).status =
      (if a = .done then .ok else .transmissionFailure)

/-- R162, R164: with no answer yet, a SEND stays in PHASE = TRANSMIT with the waveform in flight; the machine then
waits, and the answer, when there is one, ends the SEND as if it had been there at once. The list of answers is the
model's (notes/assumptions 5). -/
def Obligations.SendWaitsForTheDriver : Prop :=
  ∀ (s : State) (m : Name) (t : Option Name) (b : Bits), s.cfg.wf = true → s.phase = .idle → s.inFlight = none →
    s.lineHeld = true → s.answers = [] → compose s.cfg m t = .ok b → b ≠ [] →
    exec (.send m t) s = .next (sendWaiting m t b s) ∧
    step (sendWaiting m t b s) = .next (sendWaiting m t b s) ∧
    ∀ a rest, step { sendWaiting m t b s with answers := a :: rest } = exec (.send m t) { s with answers := a :: rest }

/-- R169: a SEND, and each of its classes, while another operation is in progress has no step. The spec's decision
D15 (notes/assumptions 16). -/
def Obligations.SendIsRefusedWhileBusy : Prop :=
  ∀ (s : State) (m t : Name) (tail : Option Name), s.cfg.wf = true → (s.phase ≠ .idle ∨ s.inFlight ≠ none) →
    ∀ i ∈ [Instr.send m tail, .sendBase m, .sendBaseTail m t, .sendBadTail m t, .sendSpecial m,
      .sendSpecialTail m t, .sendUnknown m tail], exec i s = .refused .busy

/-- R118, R120, R121: the three classes that are errors complete with their error, no bits, no driver call. That a
class row is a whole SEND is the model's reading (notes/assumptions 8). -/
def Obligations.ErrorClassesEndWithTheirError : Prop :=
  ∀ (s : State) (m t : Name) (tail : Option Name), s.cfg.wf = true → s.phase = .idle → s.inFlight = none →
    (∀ b, lookup s.cfg .base m = some b → lookup s.cfg .tail t = none →
      exec (.sendBadTail m t) s = .next (sendEnded m (some t) .invalidTailCode s)) ∧
    (∀ sp, lookup s.cfg .base m = none → lookup s.cfg .special m = some sp →
      exec (.sendSpecialTail m t) s = .next (sendEnded m (some t) .tailCodeNotSupported s)) ∧
    (lookup s.cfg .base m = none → lookup s.cfg .special m = none →
      exec (.sendUnknown m tail) s = .next (sendEnded m tail .unknownEffect s))

/-- R116, R117, R119: the three classes with a command complete: a non-empty one is played, its bits the base entry,
the base entry followed by the tail entry, or the special entry; an empty one ends with OK and no driver call
(R167). That an empty command calls no driver is a choice, the spec's decision D9 (notes/assumptions 18); that a
class row is a whole SEND is the model's reading (notes/assumptions 8); the line's level after an answer is a free
value (notes/assumptions 6). -/
def Obligations.CommandClassesArePlayed : Prop :=
  ∀ (s : State) (m t : Name) (b tb : Bits) (a : DrvAnswer) (rest : List DrvAnswer),
    s.cfg.wf = true → s.phase = .idle → s.inFlight = none → s.lineHeld = true → s.answers = a :: rest →
    let ends := fun (tail : Option Name) (bits : Bits) =>
      if bits = [] then sendEnded m tail .ok s
      else sendPlayed m tail (synthesize s.cfg (rleEncode bits)) a rest s
    (lookup s.cfg .base m = some b → exec (.sendBase m) s = .next (ends none b)) ∧
    (lookup s.cfg .base m = some b → lookup s.cfg .tail t = some tb →
      exec (.sendBaseTail m t) s = .next (ends (some t) (b ++ tb))) ∧
    (lookup s.cfg .base m = none → lookup s.cfg .special m = some b →
      exec (.sendSpecial m) s = .next (ends none b))

/-- R78: a class row whose mask and match the decode vector meets does what SEND does with the same operands, and
one it does not meet has no step. That a class row is a whole SEND is the model's reading (notes/assumptions 8). -/
def Obligations.ClassRowsAreSendOrNothing : Prop :=
  ∀ (s : State) (m t : Name) (tail : Option Name), s.cfg.wf = true → s.phase = .idle → s.inFlight = none →
    let row := fun (mask value : Nat) (operand : Option Name) (i : Instr) =>
      exec i s = if decodeVector s.cfg m operand &&& mask = value then exec (.send m operand) s
        else .refused .rowNotSelected
    row 0xA 0x8 none (.sendBase m) ∧ row 0xB 0xB (some t) (.sendBaseTail m t) ∧
    row 0xB 0xA (some t) (.sendBadTail m t) ∧ row 0xE 0x4 none (.sendSpecial m) ∧
    row 0xE 0x6 (some t) (.sendSpecialTail m t) ∧ row 0xC 0x0 tail (.sendUnknown m tail)

/-- R35, R165: phase by phase or at once, a SEND is the same: four steps from its acceptance end where `exec` does,
when the caller has issued nothing else. That exec collapses the phases is the model's, allowed by D8
(notes/assumptions 7). -/
def Obligations.PhaseByPhaseIsSend : Prop :=
  ∀ (s : State) (m : Name) (t : Option Name), s.cfg.wf = true → s.phase = .idle → s.inFlight = none →
    s.requests = [] → steps 4 (accept m t s) = exec (.send m t) s

/-- R40, R168: what a SEND does depends on its operands, the configuration, the line's handle and the driver's
answers, and on nothing an earlier command left: two ready states that agree on these get the same new results,
driver calls and registers. -/
def Obligations.SendForgetsThePast : Prop :=
  ∀ (s s' u : State) (m : Name) (t : Option Name), s.ready = true → s'.ready = true → s'.cfg = s.cfg →
    s'.lineHeld = s.lineHeld → s'.answers = s.answers → exec (.send m t) s = .next u →
    ∃ u' newResults newCalls, exec (.send m t) s' = .next u' ∧
      u.returned = s.returned ++ newResults ∧ u'.returned = s'.returned ++ newResults ∧
      u.driverCalls = s.driverCalls ++ newCalls ∧ u'.driverCalls = s'.driverCalls ++ newCalls ∧
      u'.main = u.main ∧ u'.tail = u.tail ∧ u'.cmd = u.cmd ∧ u'.rl = u.rl ∧ u'.pulses = u.pulses ∧
      u'.phase = u.phase ∧ u'.inFlight = u.inFlight ∧ u'.answers = u.answers ∧
      (u.phase = .idle → u'.status = u.status)

/-! ### The whole machine -/

/-- When the block is ready and the next request decodes to a well-formed instruction, a step is `exec` of it, the
request taken; a TRANSMIT request of the caller is refused (R225). The list of requests and the test bench that may
issue a TRANSMIT are the model's (notes/assumptions 4, 13). -/
def Obligations.StepRunsTheDecodedInstruction : Prop :=
  ∀ (s : State) (q : Issued) (rest : List Issued) (i : Instr), s.phase = .idle → s.inFlight = none →
    s.requests = q :: rest → decode q.request = .ok i →
    (q.issuer = .bench ∨ i.op ≠ .transmit → step s = exec i { s with requests := rest }) ∧
    (q.issuer = .caller → i.op = .transmit → step s = .refused .driverOnlyThroughSend)

/-- R41, R164: with no request the ready block waits; with a waveform in flight and no answer it waits, whatever the
caller has issued. That waiting is a step is the model's choice (notes/assumptions 5, 21). -/
def Obligations.TheBlockWaits : Prop :=
  (∀ s : State, s.phase = .idle → s.inFlight = none → s.requests = [] → step s = .next s) ∧
  (∀ (s : State) (w : Waveform), s.cfg.wf = true → s.inFlight = some w → s.answers = [] → step s = .next s)

/-- Every step, and every instruction, keeps the invariant. It says that CMD is what COMPOSE gives for MAIN and
TAIL, that RL and PULSES are its run lengths and waveform, each from its phase on. -/
def Obligations.InvariantIsKept : Prop :=
  (∀ (i : Instr) (s u : State), s.Inv → exec i s = .next u → u.Inv) ∧
  (∀ s u : State, s.Inv → step s = .next u → u.Inv)

/-- R41, R213: a reset with a well-formed configuration gives the reset state, which has the invariant when the
table is in canonical form; an ill-formed one is refused; the model's own reset state is such a state. State.reset's
configuration is the model's choice (notes/assumptions 2). -/
def Obligations.ResetState : Prop :=
  (∀ c : Config, c.wf = true → ∃ s, State.construct c = .next s ∧ s.cfg = c ∧ s.cmd = [] ∧ s.rl = [] ∧
    s.pulses = [] ∧ s.phase = .idle ∧ s.status = .ok ∧ s.lineHeld = true ∧ s.inFlight = none ∧
    (c.table.wf → s.Inv)) ∧
  (∀ c : Config, c.legal = false → State.construct c = .refused .illFormedConfig) ∧
  State.construct Config.atReset = .next State.reset ∧ State.reset.Inv

/-- R213: on a block whose configuration is ill-formed no instruction has a step. The spec's decisions D3 and D6
(notes/assumptions 15). -/
def Obligations.IllFormedConfigHasNoStep : Prop :=
  ∀ (i : Instr) (s : State), s.cfg.legal = false → exec i s = .refused .illFormedConfig

/-- R22, R216: no instruction, no error, no driver answer and no step changes the configuration, so every read of
the table is what it was at reset. -/
def Obligations.ConfigurationIsNeverWritten : Prop :=
  (∀ (i : Instr) (s u : State), exec i s = .next u →
    u.cfg = s.cfg ∧ ∀ cat key, u.cfg.table.read cat key = s.cfg.table.read cat key) ∧
  (∀ s u : State, step s = .next u →
    u.cfg = s.cfg ∧ ∀ cat key, u.cfg.table.read cat key = s.cfg.table.read cat key)

/-- R57, R60: one step makes at most one driver call, on OUTPUT_LINE only, and never takes back a result or a call:
both come out in order. -/
def Obligations.AtMostOneDriverCallPerStep : Prop :=
  ∀ s u : State, s.Inv → step s = .next u →
    callsMade s ≤ callsMade u ∧ callsMade u ≤ callsMade s + 1 ∧
    s.returned <+: u.returned ∧ s.driverCalls <+: u.driverCalls ∧
    (∀ c ∈ u.driverCalls, c ∈ s.driverCalls ∨ c.wave.line = s.cfg.outputLine)

/-- R36: STATUS changes only in a step that ends a SEND: PHASE is IDLE after it, and the result that goes to the
caller last is the one STATUS says. -/
def Obligations.StatusIsWrittenAtTheEnd : Prop :=
  ∀ s u : State, step s = .next u → u.status ≠ s.status →
    u.phase = .idle ∧ u.returned = s.returned ++ [.sent u.status.result]

/-- R35: the work of one phase moves PHASE one place forward or back to IDLE, or leaves it while the driver has not
answered. -/
def Obligations.PhaseMovesForward : Prop :=
  ∀ s u : State, s.phase ≠ .idle → s.Inv → advance s = .next u →
    u.phase.code = s.phase.code + 1 ∨ u.phase = .idle ∨
      (u.phase = s.phase ∧ s.phase = .transmit ∧ s.answers = [])

/-- R189, R163: after any step that ends a SEND with an error, the line has seen nothing new. That failed means no
pulse played rests on notes/assumptions 19. -/
def Obligations.ErrorsAreBeforeAnyPulse : Prop :=
  ∀ (s u : State) (e : Err), step s = .next u → u.returned = s.returned ++ [.sent (.err e)] →
    u.lineSaw = s.lineSaw ∧ u.status = e.status ∧ u.phase = .idle

/-! ### The caller -/

/-- R221: the caller's delay is INTER_COMMAND_WAIT plus the command's bit count times MARGIN_PER_BIT, owed only
after a SEND that returned ok with a non-empty command. The spec's decision D12 (notes/assumptions 22). -/
def Obligations.DelayTheCallerOwes : Prop :=
  ∀ (c : Config) (n : Nat) (e : Err),
    (0 < n → owedDelay c (.ok ()) n = some (c.interCommandWait + n * c.marginPerBit)) ∧
    owedDelay c (.ok ()) 0 = none ∧ owedDelay c (.err e) n = none

/-- R90: one token is a main effect, two tokens a main effect and a tail code, whatever whitespace stands around and
between them. That tokens are separated by whitespace is the spec's decision D4 (notes/assumptions 25). -/
def Obligations.TextualCommandForm : Prop :=
  ∀ (t : CharTable) (m tc s1 s2 s3 : Name), m ≠ [] → tc ≠ [] → s2 ≠ [] →
    (∀ c ∈ m ++ tc, isSpace t c = false) → (∀ c ∈ s1 ++ s2 ++ s3, isSpace t c = true) →
    parseCommand t (s1 ++ m ++ s3) = some (m, none) ∧
    parseCommand t (s1 ++ m ++ s2 ++ tc ++ s3) = some (m, some tc)

/-! ### The driver boundary -/

/-- R225, R171: where the caller issues every request, DrvPlay is reached only through SEND and each pulse list is used
once: what a step hands to the driver is the waveform of the command that MAIN and TAIL name; when it is answered, CMD
and PULSES are empty and nothing is in flight; and the next state is of the same kind. That a test bench may issue a
TRANSMIT, which this excludes, is the model's reading (notes/assumptions 13). -/
def Obligations.DriverIsReachedOnlyThroughSend : Prop :=
  ∀ s u : State, s.Inv → s.CallersOnly → step s = .next u →
    u.CallersOnly ∧
    (∀ w, u.inFlight = some w → u.PlaysItsCommand w ∧ u.driverCalls = s.driverCalls) ∧
    (u.driverCalls = s.driverCalls ∨
      ∃ w a, u.driverCalls = s.driverCalls ++ [⟨w, a⟩] ∧ u.PlaysItsCommand w ∧ u.inFlight = none ∧
        u.cmd = [] ∧ u.rl = [] ∧ u.pulses = [] ∧ u.phase = .idle ∧
        u.returned = s.returned ++ [.sent a.status.result])
end

