-- ==== Sys2Proof/Laws/Decode.lean ====
section
/-! SUPPORT. Everything the parts of the decoder can do when they answer an instruction: the selected row, the
attached operands, the typing check. -/

namespace Sys2Proof

/-- The bit TP of every code a class row is encoded with. -/
theorem tpBit_encoded : tpBit 0x0 = false ∧ tpBit 0x2 = true ∧ tpBit 0x4 = false ∧ tpBit 0x6 = true ∧
    tpBit 0x8 = false ∧ tpBit 0xA = true ∧ tpBit 0xB = true := by decide

/-- A decoded operation is the one of a row of the table that the code selects. -/
theorem decodeOp_ok {w : CodeWord} {op : Op} (h : decodeOp w = .ok op) :
    ∃ r ∈ opcodeTable, r.op = op ∧ r.selects w = true := by
  unfold decodeOp at h
  split at h
  · exact absurd h (by simp)
  · split at h
    · next r hr => exact ⟨r, List.mem_of_find?_eq_some hr, by simpa using h, by simpa using List.find?_some hr⟩
    · exact absurd h (by simp)

/-- Every operation has one row. -/
theorem opcodeTable_row_unique : ∀ r ∈ opcodeTable, ∀ r' ∈ opcodeTable, r'.op = r.op → r' = r := by decide

/-- No two rows of one decode space select the same code. -/
theorem opcodeTable_no_overlap :
    ∀ r ∈ opcodeTable, ∀ r' ∈ opcodeTable, ∀ k, k < 16 → r.selects ⟨r.space, k⟩ = true →
      r'.selects ⟨r.space, k⟩ = true → r' = r := by decide

/-- Attaching operands keeps the operation and every operand. -/
theorem attach_ok {op : Op} {k : Nat} {o : Operands} {i : Instr} (h : attach op k o = .ok i) :
    i.op = op ∧ (encode i).operands = o := by
  cases o with
  | name n => cases op <;> (simp [attach] at h; try (subst h; exact ⟨rfl, rfl⟩))
  | bits b => cases op <;> (simp [attach] at h; try (subst h; exact ⟨rfl, rfl⟩))
  | runs rls => cases op <;> (simp [attach] at h; try (subst h; exact ⟨rfl, rfl⟩))
  | pulses ps l => cases op <;> (simp [attach] at h; try (subst h; exact ⟨rfl, rfl⟩))
  | command m t =>
    by_cases hb : tpBit k = t.isSome
    · cases op <;> cases t <;> simp [attach, attachCommand, hb] at h hb <;> subst h <;> exact ⟨rfl, rfl⟩
    · cases op <;> simp [attach, attachCommand, hb] at h <;> subst h <;> exact ⟨rfl, rfl⟩

/-- The typing check answers the instruction itself, and only when it is well-formed. -/
theorem checkTyped_ok {i j : Instr} (h : checkTyped i = .ok j) : j = i ∧ i.wf = true := by
  unfold checkTyped at h
  split at h
  · next hn => exact ⟨by simpa using h.symm, by simp [Instr.wf, hn]⟩
  · exact absurd h (by simp)

end Sys2Proof
end

