-- ==== Sys2Proof/Laws/Encode.lean ====
section
/-! SUPPORT. The run-length encoder: its equations, and that it answers a run exactly when there is a bit. -/

namespace Sys2Proof.Machine

open Sys2Proof

@[simp] theorem rleEncode_nil : rleEncode [] = [] := rfl
@[simp] theorem rleEncode_single (b : Bit) : rleEncode [b] = [1] := rfl

theorem rleEncode_ne_nil (b : Bit) (bs : Bits) : rleEncode (b :: bs) ≠ [] := by
  cases bs with
  | nil => simp
  | cons c rest => simp only [rleEncode]; split <;> (try split) <;> simp

/-- The head and tail of the runs of a non-empty sequence. -/
theorem rleEncode_cons_exists (b : Bit) (bs : Bits) : ∃ n ns, rleEncode (b :: bs) = n :: ns := by
  cases h : rleEncode (b :: bs) with
  | nil => exact absurd h (rleEncode_ne_nil b bs)
  | cons n ns => exact ⟨n, ns, rfl⟩

/-- Equal neighbours share a run (R130). -/
theorem rleEncode_same {b : Bit} {bs : Bits} {n : Nat} {ns : List Nat}
    (h : rleEncode (b :: bs) = n :: ns) : rleEncode (b :: b :: bs) = (n + 1) :: ns := by
  simp [rleEncode, h]

/-- Unequal neighbours start a new run (R130, R131). -/
theorem rleEncode_differ {b c : Bit} {bs : Bits} (h : b ≠ c) :
    rleEncode (b :: c :: bs) = 1 :: rleEncode (c :: bs) := by
  obtain ⟨n, ns, hn⟩ := rleEncode_cons_exists c bs
  simp [rleEncode, hn, h]

/-- Every count is positive. -/
theorem rleEncode_pos (bits : Bits) : ∀ n ∈ rleEncode bits, 0 < n := by
  induction bits with
  | nil => simp
  | cons b bs ih =>
    cases bs with
    | nil => simp
    | cons c rest =>
      obtain ⟨n, ns, hn⟩ := rleEncode_cons_exists c rest
      by_cases hbc : b = c
      · subst hbc
        rw [rleEncode_same hn]
        rw [hn] at ih
        intro k hk
        rcases List.mem_cons.1 hk with rfl | hk
        · exact Nat.succ_pos _
        · exact ih k (List.mem_cons_of_mem _ hk)
      · rw [rleEncode_differ hbc]
        intro k hk
        rcases List.mem_cons.1 hk with rfl | hk
        · exact Nat.one_pos
        · exact ih k hk

theorem rleEncode_eq_nil {bits : Bits} : rleEncode bits = [] ↔ bits = [] := by
  cases bits with
  | nil => simp
  | cons b bs => simp [rleEncode_ne_nil]

/-- A bit that differs from another is its complement. -/
theorem bit_compl {b c : Bit} (h : b ≠ c) : c = 1 - b := by
  revert h; revert b c; decide

end Sys2Proof.Machine
end

