-- ==== Sys2Proof/Laws/Memory.lean ====
section
/-! SUPPORT. The catalogs: what an insertion leaves to be read, and that it keeps the canonical form. -/

namespace Sys2Proof

theorem Catalog.find_insert_self (key : Name) (bits : Bits) (c : Catalog) :
    Catalog.find (Catalog.insert key bits c) key = some bits := by
  induction c with
  | nil => simp [Catalog.insert, Catalog.find]
  | cons e rest ih =>
    obtain ⟨k, b⟩ := e
    simp only [Catalog.insert]
    split
    · simp [Catalog.find]
    · split
      · simp [Catalog.find]
      · next hne _ => simp [Catalog.find, Ne.symm hne, ih]

theorem Catalog.find_insert_other {key k' : Name} (bits : Bits) (c : Catalog) (h : k' ≠ key) :
    Catalog.find (Catalog.insert key bits c) k' = Catalog.find c k' := by
  induction c with
  | nil => simp [Catalog.insert, Catalog.find, Ne.symm h]
  | cons e rest ih =>
    obtain ⟨k, b⟩ := e
    simp only [Catalog.insert]
    split
    · next hk => subst hk; simp [Catalog.find, Ne.symm h]
    · split
      · simp [Catalog.find, Ne.symm h]
      · simp [Catalog.find, ih]

/-- The keys of a catalog after an insertion. -/
theorem Catalog.mem_keys_insert {key k' : Name} {bits : Bits} {c : Catalog}
    (h : k' ∈ (Catalog.insert key bits c).map Prod.fst) : k' = key ∨ k' ∈ c.map Prod.fst := by
  induction c with
  | nil => simpa [Catalog.insert] using h
  | cons e rest ih =>
    obtain ⟨k, b⟩ := e
    simp only [Catalog.insert] at h
    split at h
    · rcases List.mem_cons.1 h with h | h
      · exact .inl h
      · exact .inr (List.mem_cons_of_mem _ h)
    · split at h
      · rcases List.mem_cons.1 h with h | h
        · exact .inl h
        · exact .inr h
      · rcases List.mem_cons.1 h with h | h
        · exact .inr (h ▸ List.mem_cons_self)
        · exact (ih h).imp_right (List.mem_cons_of_mem _)

theorem Catalog.wf_insert {key : Name} {bits : Bits} {c : Catalog} (h : Catalog.wf c) :
    Catalog.wf (Catalog.insert key bits c) := by
  induction c with
  | nil => simp [Catalog.insert, Catalog.wf]
  | cons e rest ih =>
    obtain ⟨k, b⟩ := e
    have hk : ∀ k' ∈ rest.map Prod.fst, k < k' := (List.pairwise_cons.1 h).1
    have hr : Catalog.wf rest := (List.pairwise_cons.1 h).2
    simp only [Catalog.insert]
    split
    · next he => subst he; exact List.pairwise_cons.2 ⟨hk, hr⟩
    · split
      · next hlt =>
        refine List.pairwise_cons.2 ⟨fun k' hk' => ?_, h⟩
        rcases List.mem_cons.1 hk' with rfl | hk'
        · exact hlt
        · exact lt_trans hlt (hk k' hk')
      · next hne hlt =>
        refine List.pairwise_cons.2 ⟨fun k' hk' => ?_, ih hr⟩
        rcases Catalog.mem_keys_insert hk' with rfl | hk'
        · exact lt_of_le_of_ne (not_lt.1 hlt) (Ne.symm hne)
        · exact hk k' hk'

theorem Catalog.wf_erase {key : Name} {c : Catalog} (h : Catalog.wf c) : Catalog.wf (Catalog.erase key c) :=
  List.Pairwise.sublist (List.Sublist.map Prod.fst List.filter_sublist) h

@[simp] theorem Memory.catalog_withCatalog_self (m : Memory) (cat : Cat) (c : Catalog) :
    (m.withCatalog cat c).catalog cat = c := by cases cat <;> rfl

theorem Memory.catalog_withCatalog_other (m : Memory) {cat cat' : Cat} (c : Catalog) (h : cat' ≠ cat) :
    (m.withCatalog cat c).catalog cat' = m.catalog cat' := by
  cases cat <;> cases cat' <;> first | rfl | exact absurd rfl h

theorem Memory.wf_iff (m : Memory) : m.wf ↔ ∀ cat, Catalog.wf (m.catalog cat) :=
  ⟨fun h cat => by cases cat; exacts [h.1, h.2.1, h.2.2], fun h => ⟨h .base, h .tail, h .special⟩⟩

theorem Memory.wf_empty : Memory.empty.wf := by simp [Memory.empty, Catalog.wf]

/-- The load of one entry keeps the canonical form. -/
theorem Memory.wf_load {m : Memory} (h : m.wf) (cat : Cat) (key : Name) (bits : Bits) :
    (m.load cat key bits).wf := by
  rw [Memory.wf_iff] at h ⊢
  intro cat'
  by_cases hc : cat' = cat
  · subst hc; rw [Memory.load, Memory.catalog_withCatalog_self]; exact Catalog.wf_insert (h _)
  · rw [Memory.load, Memory.catalog_withCatalog_other _ _ hc]; exact h cat'

/-- Every table that a list of entries declares is in canonical form. -/
theorem Memory.wf_ofEntries (es : List (Cat × Name × Bits)) : (Memory.ofEntries es).wf := by
  suffices h : ∀ m : Memory, m.wf → (es.foldl (fun m e => m.load e.1 e.2.1 e.2.2) m).wf from h _ Memory.wf_empty
  induction es with
  | nil => exact fun m h => h
  | cons e es ih => exact fun m h => ih _ (Memory.wf_load h _ _ _)

/-- In a canonical catalog a key below or equal to no listed key is not found. -/
theorem Catalog.find_of_not_mem {c : Catalog} {key : Name} (h : key ∉ c.map Prod.fst) : Catalog.find c key = none := by
  induction c with
  | nil => rfl
  | cons e rest ih =>
    obtain ⟨k, b⟩ := e
    have hk : k ≠ key := fun he => h (he ▸ List.mem_cons_self)
    simp only [Catalog.find, if_neg hk]
    exact ih fun hm => h (List.mem_cons_of_mem _ hm)

theorem Catalog.mem_of_find {c : Catalog} {key : Name} {b : Bits} (h : Catalog.find c key = some b) :
    key ∈ c.map Prod.fst := by
  by_contra hn
  simp [Catalog.find_of_not_mem hn] at h

end Sys2Proof
end

