-- ==== Sys2Proof/Laws/Names.lean ====
section
/-! SUPPORT. The laws of the character functions, and what trimming leaves. -/

namespace Sys2Proof

/-- A character the table does not change is its own upper case. -/
theorem upper_of_not_listed {t : CharTable} {c : Char} (h : t.upperPairs.find? (fun p => p.1 == c) = none) :
    upper t c = c := by simp [upper, h]

/-- `upper` is idempotent and keeps `isSpace`, for every character (R73). -/
theorem charLaws_all {t : CharTable} (h : charLaws t = true) (c : Char) :
    upper t (upper t c) = upper t c ∧ isSpace t (upper t c) = isSpace t c := by
  cases hf : t.upperPairs.find? (fun p => p.1 == c) with
  | none => simp [upper_of_not_listed hf]
  | some p =>
    have hp : p.1 = c := by simpa using List.find?_some hf
    have := List.all_eq_true.1 h p (List.mem_of_find?_eq_some hf)
    rw [hp] at this
    simpa using this

theorem isSpace_comp_upper {t : CharTable} (h : charLaws t = true) :
    (isSpace t ∘ upper t) = isSpace t := funext fun c => (charLaws_all h c).2

theorem dropWhile_map_upper {t : CharTable} (h : charLaws t = true) (n : Name) :
    (n.map (upper t)).dropWhile (isSpace t) = (n.dropWhile (isSpace t)).map (upper t) := by
  rw [List.dropWhile_map, isSpace_comp_upper h]

/-- Trimming and upper-casing commute (R74). -/
theorem trim_map_upper {t : CharTable} (h : charLaws t = true) (n : Name) :
    trim t (n.map (upper t)) = (trim t n).map (upper t) := by
  simp only [trim, dropWhile_map_upper h, ← List.map_reverse]

/-- A name with no whitespace at either end is its own trim. -/
theorem trim_eq_self {t : CharTable} {n : Name} (h1 : n.dropWhile (isSpace t) = n)
    (h2 : n.reverse.dropWhile (isSpace t) = n.reverse) : trim t n = n := by
  simp [trim, h1, h2]

theorem dropWhile_idem {p : Char → Bool} (n : Name) : (n.dropWhile p).dropWhile p = n.dropWhile p := by
  induction n with
  | nil => rfl
  | cons c cs ih =>
    by_cases h : p c = true
    · simpa [List.dropWhile_cons, h] using ih
    · simp [h]

theorem dropWhile_reverse_dropWhile {p : Char → Bool} {n : Name} (h : n.dropWhile p = n) :
    (n.reverse.dropWhile p).reverse.dropWhile p = (n.reverse.dropWhile p).reverse := by
  cases n with
  | nil => rfl
  | cons c cs =>
    have hc : p c = false := by
      by_contra hp
      rw [Bool.not_eq_false] at hp
      rw [List.dropWhile_cons, if_pos hp] at h
      have := (List.dropWhile_sublist p (l := cs)).length_le
      rw [h] at this
      simp at this
    have hs : ∃ ys, ((c :: cs).reverse.dropWhile p).reverse = c :: ys := by
      have : (cs.reverse ++ [c]).dropWhile p = (cs.reverse.dropWhile p) ++ [c] := by
        induction cs.reverse with
        | nil => simp [hc]
        | cons x xs ih =>
          by_cases hx : p x = true <;> simp [hx, ih]
      exact ⟨(cs.reverse.dropWhile p).reverse, by simp [this]⟩
    obtain ⟨ys, hy⟩ := hs
    rw [hy]
    simp [hc]

/-- Trimming twice is trimming once. -/
theorem trim_trim (t : CharTable) (n : Name) : trim t (trim t n) = trim t n := by
  apply trim_eq_self
  · exact dropWhile_reverse_dropWhile (dropWhile_idem n)
  · simp [trim, dropWhile_idem]

/-- The empty name is its own normalisation, under any character functions (R106). -/
@[simp] theorem norm_nil (t : CharTable) : norm t [] = [] := rfl

end Sys2Proof
end

