-- ==== Sys2Proof/Laws/PerInstr.lean ====
section
/-! SUPPORT. Facts that hold of every instruction as syntax, one lemma per constructor: the code word an instruction
is encoded with selects its own row of the opcode table. -/

/-- The code word of an instruction decodes to its operation. -/
def Sys2Proof.Laws.Encodes.Statement (i : Sys2Proof.Instr) : Prop :=
  Sys2Proof.decodeOp (Sys2Proof.encode i).word = .ok i.op

namespace Sys2Proof.Laws.Encodes

theorem lookupBase (n : Name) : Statement (.lookupBase n) := by
  simp only [Statement, Sys2Proof.encode, encodeWord, Instr.op]; decide

theorem lookupTail (n : Name) : Statement (.lookupTail n) := by
  simp only [Statement, Sys2Proof.encode, encodeWord, Instr.op]; decide

theorem lookupSpecial (n : Name) : Statement (.lookupSpecial n) := by
  simp only [Statement, Sys2Proof.encode, encodeWord, Instr.op]; decide

theorem send (m : Name) (t : Option Name) : Statement (.send m t) := by
  simp only [Statement, Sys2Proof.encode, encodeWord, Instr.op]; decide

theorem compose (m : Name) (t : Option Name) : Statement (.compose m t) := by
  simp only [Statement, Sys2Proof.encode, encodeWord, Instr.op]; decide

theorem encode (b : Bits) : Statement (.encode b) := by
  simp only [Statement, Sys2Proof.encode, encodeWord, Instr.op]; decide

theorem synthesize (rls : List Nat) : Statement (.synthesize rls) := by
  simp only [Statement, Sys2Proof.encode, encodeWord, Instr.op]; decide

theorem transmit (ps : List Pulse) (l : LineId) : Statement (.transmit ps l) := by
  simp only [Statement, Sys2Proof.encode, encodeWord, Instr.op]; decide

theorem sendBase (m : Name) : Statement (.sendBase m) := by
  simp only [Statement, Sys2Proof.encode, encodeWord, Instr.op]; decide

theorem sendBaseTail (m : Name) (t : Name) : Statement (.sendBaseTail m t) := by
  simp only [Statement, Sys2Proof.encode, encodeWord, Instr.op]; decide

theorem sendBadTail (m : Name) (t : Name) : Statement (.sendBadTail m t) := by
  simp only [Statement, Sys2Proof.encode, encodeWord, Instr.op]; decide

theorem sendSpecial (m : Name) : Statement (.sendSpecial m) := by
  simp only [Statement, Sys2Proof.encode, encodeWord, Instr.op]; decide

theorem sendSpecialTail (m : Name) (t : Name) : Statement (.sendSpecialTail m t) := by
  simp only [Statement, Sys2Proof.encode, encodeWord, Instr.op]; decide

theorem sendUnknown (m : Name) (t : Option Name) : Statement (.sendUnknown m t) := by
  cases t <;> (simp only [Statement, Sys2Proof.encode, encodeWord, Instr.op]; decide)

end Sys2Proof.Laws.Encodes
end

