-- ==== Sys2Proof/Laws/State.lean ====
section
/-! SUPPORT. What each shared operation leaves in each field, and what the guards answer: cited by the provers in
place of unfolding. -/

namespace Sys2Proof.Machine

open Sys2Proof

/-! ### `respond`: only the results returned change -/

section Respond
variable (r : Response) (s : State)
@[simp] theorem respond_cfg : (respond r s).cfg = s.cfg := rfl
@[simp] theorem respond_main : (respond r s).main = s.main := rfl
@[simp] theorem respond_tail : (respond r s).tail = s.tail := rfl
@[simp] theorem respond_cmd : (respond r s).cmd = s.cmd := rfl
@[simp] theorem respond_rl : (respond r s).rl = s.rl := rfl
@[simp] theorem respond_pulses : (respond r s).pulses = s.pulses := rfl
@[simp] theorem respond_phase : (respond r s).phase = s.phase := rfl
@[simp] theorem respond_status : (respond r s).status = s.status := rfl
@[simp] theorem respond_lineHeld : (respond r s).lineHeld = s.lineHeld := rfl
@[simp] theorem respond_lineLevel : (respond r s).lineLevel = s.lineLevel := rfl
@[simp] theorem respond_freeDraws : (respond r s).freeDraws = s.freeDraws := rfl
@[simp] theorem respond_inFlight : (respond r s).inFlight = s.inFlight := rfl
@[simp] theorem respond_requests : (respond r s).requests = s.requests := rfl
@[simp] theorem respond_answers : (respond r s).answers = s.answers := rfl
@[simp] theorem respond_returned : (respond r s).returned = s.returned ++ [r] := rfl
@[simp] theorem respond_driverCalls : (respond r s).driverCalls = s.driverCalls := rfl
end Respond

/-! ### `finish`: STATUS, the per-command registers, PHASE and the results returned change -/

section Finish
variable (st : Status) (s : State)
@[simp] theorem finish_cfg : (finish st s).cfg = s.cfg := rfl
@[simp] theorem finish_main : (finish st s).main = s.main := rfl
@[simp] theorem finish_tail : (finish st s).tail = s.tail := rfl
@[simp] theorem finish_cmd : (finish st s).cmd = [] := rfl
@[simp] theorem finish_rl : (finish st s).rl = [] := rfl
@[simp] theorem finish_pulses : (finish st s).pulses = [] := rfl
@[simp] theorem finish_phase : (finish st s).phase = .idle := rfl
@[simp] theorem finish_status : (finish st s).status = st := rfl
@[simp] theorem finish_lineHeld : (finish st s).lineHeld = s.lineHeld := rfl
@[simp] theorem finish_lineLevel : (finish st s).lineLevel = s.lineLevel := rfl
@[simp] theorem finish_freeDraws : (finish st s).freeDraws = s.freeDraws := rfl
@[simp] theorem finish_inFlight : (finish st s).inFlight = s.inFlight := rfl
@[simp] theorem finish_requests : (finish st s).requests = s.requests := rfl
@[simp] theorem finish_answers : (finish st s).answers = s.answers := rfl
@[simp] theorem finish_returned : (finish st s).returned = s.returned ++ [.sent st.result] := rfl
@[simp] theorem finish_driverCalls : (finish st s).driverCalls = s.driverCalls := rfl
end Finish

/-! ### `takeAnswer`: the driver boundary changes, no register -/

section TakeAnswer
variable (w : Waveform) (a : DrvAnswer) (rest : List DrvAnswer) (s : State)
@[simp] theorem takeAnswer_cfg : (takeAnswer w a rest s).cfg = s.cfg := rfl
@[simp] theorem takeAnswer_main : (takeAnswer w a rest s).main = s.main := rfl
@[simp] theorem takeAnswer_tail : (takeAnswer w a rest s).tail = s.tail := rfl
@[simp] theorem takeAnswer_cmd : (takeAnswer w a rest s).cmd = s.cmd := rfl
@[simp] theorem takeAnswer_rl : (takeAnswer w a rest s).rl = s.rl := rfl
@[simp] theorem takeAnswer_pulses : (takeAnswer w a rest s).pulses = s.pulses := rfl
@[simp] theorem takeAnswer_phase : (takeAnswer w a rest s).phase = s.phase := rfl
@[simp] theorem takeAnswer_status : (takeAnswer w a rest s).status = s.status := rfl
@[simp] theorem takeAnswer_lineHeld : (takeAnswer w a rest s).lineHeld = s.lineHeld := rfl
@[simp] theorem takeAnswer_lineLevel :
    (takeAnswer w a rest s).lineLevel = Config.freeLineLevel s.freeDraws := rfl
@[simp] theorem takeAnswer_freeDraws : (takeAnswer w a rest s).freeDraws = s.freeDraws + 1 := rfl
@[simp] theorem takeAnswer_inFlight : (takeAnswer w a rest s).inFlight = none := rfl
@[simp] theorem takeAnswer_requests : (takeAnswer w a rest s).requests = s.requests := rfl
@[simp] theorem takeAnswer_answers : (takeAnswer w a rest s).answers = rest := rfl
@[simp] theorem takeAnswer_returned : (takeAnswer w a rest s).returned = s.returned := rfl
@[simp] theorem takeAnswer_driverCalls : (takeAnswer w a rest s).driverCalls = s.driverCalls ++ [⟨w, a⟩] := rfl
end TakeAnswer

/-! ### `accept`: the operands latched, the per-command registers emptied, PHASE = COMPOSE -/

section Accept
variable (m : Name) (t : Option Name) (s : State)
@[simp] theorem accept_cfg : (accept m t s).cfg = s.cfg := rfl
@[simp] theorem accept_main : (accept m t s).main = m := rfl
@[simp] theorem accept_tail : (accept m t s).tail = t := rfl
@[simp] theorem accept_cmd : (accept m t s).cmd = [] := rfl
@[simp] theorem accept_rl : (accept m t s).rl = [] := rfl
@[simp] theorem accept_pulses : (accept m t s).pulses = [] := rfl
@[simp] theorem accept_phase : (accept m t s).phase = .compose := rfl
@[simp] theorem accept_status : (accept m t s).status = s.status := rfl
@[simp] theorem accept_lineHeld : (accept m t s).lineHeld = s.lineHeld := rfl
@[simp] theorem accept_lineLevel : (accept m t s).lineLevel = s.lineLevel := rfl
@[simp] theorem accept_freeDraws : (accept m t s).freeDraws = s.freeDraws := rfl
@[simp] theorem accept_inFlight : (accept m t s).inFlight = s.inFlight := rfl
@[simp] theorem accept_requests : (accept m t s).requests = s.requests := rfl
@[simp] theorem accept_answers : (accept m t s).answers = s.answers := rfl
@[simp] theorem accept_returned : (accept m t s).returned = s.returned := rfl
@[simp] theorem accept_driverCalls : (accept m t s).driverCalls = s.driverCalls := rfl
end Accept

/-! ### `andThen` -/

@[simp] theorem andThen_next (s : State) (k : State → Out) : andThen (.next s) k = k s := rfl
@[simp] theorem andThen_refused (r : Refusal) (k : State → Out) : andThen (.refused r) k = .refused r := rfl

/-- No further phases after an action leave its answer. -/
theorem andThen_pure (o : Out) : andThen o (advanceBy 0) = o := by
  cases o with
  | next s => rfl
  | fault f => exact nomatch f
  | refused r => rfl

theorem andThen_eq_next {o : Out} {k : State → Out} {u : State} (h : andThen o k = .next u) :
    ∃ s, o = .next s ∧ k s = .next u := by
  cases o with
  | next s => exact ⟨s, rfl, h⟩
  | fault f => exact nomatch f
  | refused r => exact absurd h (by simp [andThen])

/-! ### Guards -/

theorem whenLegal_of {s : State} {k : Out} (h : s.cfg.wf = true) : whenLegal s k = k := if_pos h

theorem whenLegal_not {s : State} {k : Out} (h : s.cfg.wf = false) : whenLegal s k = .refused .illFormedConfig :=
  if_neg (by simp [h])

theorem whenReady_of {s : State} {k : Out} (h : s.ready = true) : whenReady s k = k := if_pos h

theorem whenReady_not {s : State} {k : Out} (h : s.ready = false) : whenReady s k = .refused .busy :=
  if_neg (by simp [h])

theorem whenLegal_eq_next {s u : State} {k : Out} (h : whenLegal s k = .next u) : s.cfg.wf = true ∧ k = .next u := by
  unfold whenLegal at h
  split at h
  · exact ⟨‹_›, h⟩
  · exact absurd h (by simp)

theorem whenReady_eq_next {s u : State} {k : Out} (h : whenReady s k = .next u) : s.ready = true ∧ k = .next u := by
  unfold whenReady at h
  split at h
  · exact ⟨‹_›, h⟩
  · exact absurd h (by simp)

theorem ready_iff {s : State} : s.ready = true ↔ s.phase = .idle ∧ s.inFlight = none := by
  simp [State.ready]

/-! ### The driver boundary -/

theorem handOver_of {w : Waveform} {s : State} (hl : s.lineHeld = true) (hw : w.line = s.cfg.outputLine)
    (hf : s.inFlight = none) : handOver w s = .next { s with inFlight := some w } := if_pos ⟨hl, hw, hf⟩

theorem handOver_eq_next {w : Waveform} {s u : State} (h : handOver w s = .next u) :
    s.lineHeld = true ∧ w.line = s.cfg.outputLine ∧ s.inFlight = none ∧ u = { s with inFlight := some w } := by
  unfold handOver at h
  split at h
  · next hc => exact ⟨hc.1, hc.2.1, hc.2.2, by simpa using h.symm⟩
  · exact absurd h (by simp)

theorem driverStep_none {s : State} (h : s.inFlight = none) : driverStep s = s := by simp [driverStep, h]

theorem driverStep_silent {s : State} (h : s.answers = []) : driverStep s = s := by
  unfold driverStep; split <;> simp_all

theorem driverStep_answer {s : State} {w : Waveform} {a : DrvAnswer} {rest : List DrvAnswer}
    (hf : s.inFlight = some w) (ha : s.answers = a :: rest) :
    driverStep s = settle a (takeAnswer w a rest s) := by simp [driverStep, hf, ha]

/-- Everything a driver step can do. -/
theorem driverStep_cases (s : State) :
    driverStep s = s ∨ ∃ w a rest, s.inFlight = some w ∧ s.answers = a :: rest ∧
      driverStep s = settle a (takeAnswer w a rest s) := by
  unfold driverStep
  split
  · next w a rest hf ha => exact .inr ⟨w, a, rest, hf, ha, rfl⟩
  · exact .inl rfl

theorem settle_transmit {a : DrvAnswer} {s : State} (h : s.phase = .transmit) : settle a s = finish a.status s := by
  simp [settle, h]

theorem settle_alone {a : DrvAnswer} {s : State} (h : s.phase ≠ .transmit) :
    settle a s = respond (.transmitted a.result) s := by
  unfold settle; split <;> simp_all

/-! ### The phases -/

@[simp] theorem advanceBy_zero (s : State) : advanceBy 0 s = .next s := rfl
theorem advanceBy_succ (k : Nat) (s : State) : advanceBy (k + 1) s = andThen (advance s) (advanceBy k) := rfl

theorem advance_idle {s : State} (hf : s.inFlight = none) (hp : s.phase = .idle) : advance s = .next s := by
  simp [advance, hf, hp]

theorem advance_compose {s : State} (hf : s.inFlight = none) (hp : s.phase = .compose) :
    advance s = .next (composeStage s) := by simp [advance, hf, hp]

theorem advance_encode {s : State} (hf : s.inFlight = none) (hp : s.phase = .encode) :
    advance s = .next (encodeStage s) := by simp [advance, hf, hp]

theorem advance_synth {s : State} (hf : s.inFlight = none) (hp : s.phase = .synth) :
    advance s = .next (synthStage s) := by simp [advance, hf, hp]

theorem advance_transmit {s : State} (hf : s.inFlight = none) (hp : s.phase = .transmit) :
    advance s = play ⟨s.cfg.outputLine, s.pulses⟩ s := by simp [advance, hf, hp]

theorem advance_flight {s : State} {w : Waveform} (hf : s.inFlight = some w) :
    advance s = .next (driverStep s) := by simp [advance, hf]

/-- In IDLE with nothing in flight no number of phases does anything. -/
theorem advanceBy_idle {s : State} (hf : s.inFlight = none) (hp : s.phase = .idle) :
    ∀ k, advanceBy k s = .next s
  | 0 => rfl
  | k + 1 => by rw [advanceBy_succ, advance_idle hf hp, andThen_next, advanceBy_idle hf hp k]

end Sys2Proof.Machine
end

