-- ==== Sys2Proof/Laws/Synthesize.lean ====
section
/-! SUPPORT. The synthesizer: the carrier constants are positive, the number of cycles is the floor the spec takes,
and a mark of a positive count emits at least one pulse. -/

namespace Sys2Proof.Machine

open Sys2Proof

theorem wf_legal {c : Config} (h : c.wf = true) : c.legal = true := by
  simp only [Config.wf, Bool.and_eq_true] at h; exact h.1

theorem wf_charLaws {c : Config} (h : c.wf = true) : charLaws c.chars = true := by
  simp only [Config.wf, Config.typed, Bool.and_eq_true] at h; exact h.2.2

theorem wf_unit_pos {c : Config} (h : c.wf = true) : 0 < c.pulseUnitUs := by
  have := wf_legal h
  simp only [Config.legal, Bool.and_eq_true, decide_eq_true_eq] at this
  exact this.1.1.1.1

theorem wf_carrier_pos {c : Config} (h : c.wf = true) : 0 < c.carrierHz := by
  have := wf_legal h
  simp only [Config.legal, Bool.and_eq_true, decide_eq_true_eq] at this
  exact this.1.1.1.2

theorem periodUs_pos {c : Config} (h : c.wf = true) : 0 < periodUs c :=
  div_pos (by norm_num) (wf_carrier_pos h)

theorem halfUs_pos {c : Config} (h : c.wf = true) : 0 < halfUs c := half_pos (periodUs_pos h)

theorem halfUs_add_halfUs (c : Config) : halfUs c + halfUs c = periodUs c := add_halves _

theorem runUs_pos {c : Config} (h : c.wf = true) {n : Nat} (hn : 0 < n) : 0 < runUs c n :=
  mul_pos (Nat.cast_pos.2 hn) (wf_unit_pos h)

theorem cycleCount_eq_floor (c : Config) (d : Rat) : cycleCount c d = ⌊d / periodUs c⌋₊ := rfl

/-- The full cycles fit in the mark (R143). -/
theorem cycleCount_mul_le {c : Config} (h : c.wf = true) {d : Rat} (hd : 0 ≤ d) :
    (cycleCount c d : Rat) * periodUs c ≤ d := by
  rw [cycleCount_eq_floor, ← le_div_iff₀ (periodUs_pos h)]
  exact Nat.floor_le (div_nonneg hd (periodUs_pos h).le)

/-- One cycle more would not (R143). -/
theorem lt_cycleCount_succ_mul {c : Config} (h : c.wf = true) (d : Rat) :
    d < (cycleCount c d + 1 : Rat) * periodUs c := by
  rw [cycleCount_eq_floor, ← div_lt_iff₀ (periodUs_pos h)]
  exact Nat.lt_floor_add_one _

theorem remainderUs_nonneg {c : Config} (h : c.wf = true) {d : Rat} (hd : 0 ≤ d) : 0 ≤ remainderUs c d :=
  sub_nonneg.2 (cycleCount_mul_le h hd)

@[simp] theorem cyclePulses_zero (c : Config) : cyclePulses c 0 = [] := rfl
theorem cyclePulses_succ (c : Config) (k : Nat) :
    cyclePulses c (k + 1) = ⟨.on, halfUs c⟩ :: ⟨.off, halfUs c⟩ :: cyclePulses c k := rfl

@[simp] theorem cyclePulses_length (c : Config) (k : Nat) : (cyclePulses c k).length = 2 * k := by
  induction k with
  | zero => rfl
  | succ k ih => simp [cyclePulses_succ, ih]; ring

@[simp] theorem synthFrom_nil (c : Config) (b : Bool) : synthFrom c b [] = [] := by cases b <;> rfl
theorem synthFrom_mark (c : Config) (n : Nat) (ns : List Nat) :
    synthFrom c true (n :: ns) = markPulses c n ++ synthFrom c false ns := rfl
theorem synthFrom_space (c : Config) (n : Nat) (ns : List Nat) :
    synthFrom c false (n :: ns) = spacePulses c n ++ synthFrom c true ns := rfl

/-- A mark never vanishes (R149). -/
theorem markPulses_ne_nil {c : Config} (h : c.wf = true) {n : Nat} (hn : 0 < n) : markPulses c n ≠ [] := by
  intro he
  have hl := congrArg List.length he
  simp only [markPulses, List.length_append, cyclePulses_length, List.length_nil] at hl
  split at hl
  · simp at hl
  · next hr =>
    have h0 : cycleCount c (runUs c n) = 0 := by simpa using hl
    have : remainderUs c (runUs c n) = runUs c n := by simp [remainderUs, h0]
    exact hr (by rw [this]; exact runUs_pos h hn)

/-- The waveform of a non-empty list of positive counts is not empty. -/
theorem synthesize_ne_nil {c : Config} (h : c.wf = true) {rls : List Nat} (hr : rls ≠ [])
    (hp : ∀ n ∈ rls, 0 < n) : synthesize c rls ≠ [] := by
  cases rls with
  | nil => exact absurd rfl hr
  | cons n ns =>
    rw [synthesize, synthFrom_mark]
    exact fun he => markPulses_ne_nil h (hp n List.mem_cons_self) (List.append_eq_nil_iff.1 he).1

end Sys2Proof.Machine
end

