-- ==== Sys2Proof/Laws/Send.lean ====
section
/-! SUPPORT. Everything the body of a SEND can do, once: it ends with a composition error, with an empty command,
with the driver's answer, or waits for the driver (44_transmit_and_send.md R165 to R170). The provers cite these in
place of running the phases. -/

namespace Sys2Proof.Machine

open Sys2Proof

variable {m : Name} {t : Option Name} {s : State}

/-- SYNTH's end when there is a waveform. -/
theorem synthStage_of_ne {s : State} (h : synthesize s.cfg s.rl ≠ []) :
    synthStage s = { s with pulses := synthesize s.cfg s.rl, phase := .transmit } := if_neg h

/-- SYNTH's end when there is none. -/
theorem synthStage_of_nil {s : State} (h : synthesize s.cfg s.rl = []) :
    synthStage s = complete { s with pulses := synthesize s.cfg s.rl } := if_pos h

/-- A composition error ends the SEND at once (R166, R190). -/
theorem sendBody_err (e : Err) (hf : s.inFlight = none) :
    sendBody m t (.err e) s = .next (raise e (accept m t s)) :=
  advanceBy_idle (s := raise e (accept m t s)) hf rfl 3

/-- The state a SEND with a command has after phases COMPOSE, ENCODE and SYNTH. -/
def synthesized (m : Name) (t : Option Name) (bits : Bits) (s : State) : State :=
  { accept m t s with
    cmd := bits
    rl := rleEncode bits
    pulses := synthesize s.cfg (rleEncode bits)
    phase := .transmit }

/-- An empty command ends the SEND with OK and the driver is not called (R167). -/
theorem sendBody_empty (hf : s.inFlight = none) :
    sendBody m t (.ok []) s = .next (complete (accept m t s)) := by
  have h1 : advance (composed (.ok []) (accept m t s)) = .next (encodeStage (composed (.ok []) (accept m t s))) :=
    advance_encode hf rfl
  have h2 : advance (encodeStage (composed (.ok []) (accept m t s))) =
      .next (synthStage (encodeStage (composed (.ok []) (accept m t s)))) := advance_synth hf rfl
  have h3 : synthStage (encodeStage (composed (.ok []) (accept m t s))) = complete (accept m t s) := by
    rw [synthStage_of_nil (by rfl)]; rfl
  rw [sendBody, advanceBy_succ, h1, andThen_next, advanceBy_succ, h2, andThen_next, h3]
  exact advanceBy_idle (s := complete (accept m t s)) hf rfl 1

/-- A command goes through ENCODE and SYNTH and reaches the driver call (R165). -/
theorem sendBody_play {bits : Bits} (hw : s.cfg.wf = true) (hb : bits ≠ []) (hf : s.inFlight = none) :
    sendBody m t (.ok bits) s =
      play ⟨s.cfg.outputLine, synthesize s.cfg (rleEncode bits)⟩ (synthesized m t bits s) := by
  have h1 : advance (composed (.ok bits) (accept m t s)) = .next (encodeStage (composed (.ok bits) (accept m t s))) :=
    advance_encode hf rfl
  have h2 : advance (encodeStage (composed (.ok bits) (accept m t s))) =
      .next (synthStage (encodeStage (composed (.ok bits) (accept m t s)))) := advance_synth hf rfl
  have hne : synthesize s.cfg (rleEncode bits) ≠ [] :=
    synthesize_ne_nil hw (fun h => hb (rleEncode_eq_nil.1 h)) (rleEncode_pos bits)
  have h3 : synthStage (encodeStage (composed (.ok bits) (accept m t s))) = synthesized m t bits s :=
    synthStage_of_ne hne
  rw [sendBody, advanceBy_succ, h1, andThen_next, advanceBy_succ, h2, andThen_next, h3, advanceBy_succ,
    advance_transmit (s := synthesized m t bits s) hf rfl]
  exact andThen_pure _

/-- DrvPlay with an answer at hand. -/
theorem play_answer {w : Waveform} {a : DrvAnswer} {rest : List DrvAnswer} (hl : s.lineHeld = true)
    (hw : w.line = s.cfg.outputLine) (hf : s.inFlight = none) (ha : s.answers = a :: rest) :
    play w s = .next (settle a (takeAnswer w a rest { s with inFlight := some w })) := by
  rw [play, handOver_of hl hw hf, andThen_next, driverStep_answer (s := { s with inFlight := some w }) (w := w) rfl ha]

/-- DrvPlay with no answer at hand: the block waits with the waveform in flight (R162). -/
theorem play_wait {w : Waveform} (hl : s.lineHeld = true)
    (hw : w.line = s.cfg.outputLine) (hf : s.inFlight = none) (ha : s.answers = []) :
    play w s = .next { s with inFlight := some w } := by
  rw [play, handOver_of hl hw hf, andThen_next, driverStep_silent (s := { s with inFlight := some w }) ha]

/-- Everything DrvPlay can do when it answers a next state. -/
theorem play_eq_next {w : Waveform} {u : State} (h : play w s = .next u) :
    s.lineHeld = true ∧ w.line = s.cfg.outputLine ∧ s.inFlight = none ∧
      ((s.answers = [] ∧ u = { s with inFlight := some w }) ∨
        ∃ a rest, s.answers = a :: rest ∧ u = settle a (takeAnswer w a rest { s with inFlight := some w })) := by
  obtain ⟨v, hv, hu⟩ := andThen_eq_next h
  obtain ⟨hl, hw, hf, rfl⟩ := handOver_eq_next hv
  refine ⟨hl, hw, hf, ?_⟩
  obtain ha | ⟨a, rest, ha⟩ : s.answers = [] ∨ ∃ a rest, s.answers = a :: rest := by cases s.answers <;> simp
  · exact .inl ⟨ha, by rw [driverStep_silent (s := { s with inFlight := some w }) ha] at hu; simpa using hu.symm⟩
  · exact .inr ⟨a, rest, ha, by
      rw [driverStep_answer (s := { s with inFlight := some w }) (w := w) rfl ha] at hu; simpa using hu.symm⟩

/-- Everything the body of a SEND can do. -/
theorem sendBody_cases {r : Result Bits} {u : State} (hw : s.cfg.wf = true) (hf : s.inFlight = none)
    (h : sendBody m t r s = .next u) :
    (∃ e, r = .err e ∧ u = raise e (accept m t s)) ∨
      (r = .ok [] ∧ u = complete (accept m t s)) ∨
      ∃ bits, r = .ok bits ∧ bits ≠ [] ∧
        play ⟨s.cfg.outputLine, synthesize s.cfg (rleEncode bits)⟩ (synthesized m t bits s) = .next u := by
  cases r with
  | err e => exact .inl ⟨e, rfl, by rw [sendBody_err e hf] at h; simpa using h.symm⟩
  | ok bits =>
    by_cases hb : bits = []
    · subst hb; exact .inr (.inl ⟨rfl, by rw [sendBody_empty hf] at h; simpa using h.symm⟩)
    · exact .inr (.inr ⟨bits, rfl, hb, by rwa [sendBody_play hw hb hf] at h⟩)

end Sys2Proof.Machine
end

