-- ==== Sys2Proof/Laws/Step.lean ====
section
/-! SUPPORT. Everything an instruction and a step can do when they answer a next state, once: an operation called
alone returns its result, TRANSMIT plays, a SEND runs its body; a step runs the fetched request, waits, or does the
work of a phase. -/

namespace Sys2Proof.Machine

open Sys2Proof

/-- A result of an operation that calls no driver: neither SEND's nor TRANSMIT's. -/
def Response.isPure : Response → Bool
  | .found _       => true
  | .composed _    => true
  | .encoded _     => true
  | .synthesized _ => true
  | .transmitted _ => false
  | .sent _        => false

/-- The three things an instruction can do. -/
inductive Did (s u : State) : Prop where
  /-- LOOKUP, COMPOSE, ENCODE, SYNTHESIZE: the result goes to the caller. -/
  | answered (r : Response) (hr : r.isPure = true) (hu : u = respond r s)
  /-- TRANSMIT. -/
  | played (ps : List Pulse) (l : LineId) (hr : s.ready = true) (hp : play ⟨l, ps⟩ s = .next u)
  /-- SEND and its classes. -/
  | sent (m : Name) (t : Option Name) (r : Result Bits) (hr : s.ready = true) (hb : sendBody m t r s = .next u)

theorem lookupIn_did {cat : Cat} {n : Name} {s u : State} (h : lookupIn cat n s = .next u) :
    s.cfg.wf = true ∧ Did s u := by
  obtain ⟨hw, h⟩ := whenLegal_eq_next h
  exact ⟨hw, .answered (.found (lookup s.cfg cat n)) rfl (by simpa using h.symm)⟩

theorem sendClass_did {o : Op} {m : Name} {t : Option Name} {r : Result Bits} {s u : State}
    (h : sendClass o m t r s = .next u) : s.cfg.wf = true ∧ Did s u := by
  obtain ⟨hw, h⟩ := whenLegal_eq_next h
  obtain ⟨hr, h⟩ := whenReady_eq_next h
  split at h
  · exact ⟨hw, .sent m t r hr h⟩
  · exact absurd h (by simp)

/-- Everything an instruction can do. -/
theorem exec_did {i : Instr} {s u : State} (h : exec i s = .next u) : s.cfg.wf = true ∧ Did s u := by
  cases i with
  | lookupBase n => exact lookupIn_did h
  | lookupTail n => exact lookupIn_did h
  | lookupSpecial n => exact lookupIn_did h
  | compose m t =>
    obtain ⟨hw, h⟩ := whenLegal_eq_next h
    exact ⟨hw, .answered (.composed (compose s.cfg m t)) rfl (by simpa using h.symm)⟩
  | encode b =>
    obtain ⟨hw, h⟩ := whenLegal_eq_next h
    exact ⟨hw, .answered (.encoded (rleEncode b)) rfl (by simpa using h.symm)⟩
  | synthesize rls =>
    obtain ⟨hw, h⟩ := whenLegal_eq_next h
    split at h
    · exact absurd h (by simp)
    · exact ⟨hw, .answered (.synthesized (synthesize s.cfg rls)) rfl (by simpa using h.symm)⟩
  | transmit ps l =>
    obtain ⟨hw, h⟩ := whenLegal_eq_next h
    split at h
    · exact absurd h (by simp)
    · obtain ⟨hr, h⟩ := whenReady_eq_next h
      exact ⟨hw, .played ps l hr h⟩
  | send m t =>
    obtain ⟨hw, h⟩ := whenLegal_eq_next h
    obtain ⟨hr, h⟩ := whenReady_eq_next h
    exact ⟨hw, .sent m t _ hr h⟩
  | sendBase m => exact sendClass_did h
  | sendBaseTail m t => exact sendClass_did h
  | sendBadTail m t => exact sendClass_did h
  | sendSpecial m => exact sendClass_did h
  | sendSpecialTail m t => exact sendClass_did h
  | sendUnknown m t => exact sendClass_did h

/-- A block in the middle of an operation does the work of its phase. -/
theorem step_busy {s : State} (hw : s.cfg.wf = true) (hr : s.ready = false) : step s = advance s := by
  rw [step, if_neg (by simp [hr]), whenLegal_of hw]

/-- Every request that decodes is received, but for the caller's TRANSMIT. -/
theorem receive_of {q : Issued} {i : Instr} (hd : decode q.request = .ok i)
    (h : q.issuer = .bench ∨ i.op ≠ .transmit) : receive q = .ok i := by
  have hn : ¬(q.issuer = .caller ∧ i.op = .transmit) := fun hc => h.elim (fun hb => by simp [hb] at hc) (· hc.2)
  simp [receive, hd, hn]

/-- The caller's TRANSMIT is not received (R225). -/
theorem receive_transmit {q : Issued} {ps : List Pulse} {l : LineId} (hd : decode q.request = .ok (.transmit ps l))
    (hq : q.issuer = .caller) : receive q = .error .driverOnlyThroughSend := by
  simp [receive, hd, hq, Instr.op]

/-- What is received is what was decoded, and from the caller it is no TRANSMIT. -/
theorem receive_ok {q : Issued} {i : Instr} (h : receive q = .ok i) :
    decode q.request = .ok i ∧ (q.issuer = .caller → i.op ≠ .transmit) := by
  unfold receive at h
  split at h
  · exact absurd h (by simp)
  · next j hj =>
    split at h
    · exact absurd h (by simp)
    · next hn =>
      obtain rfl : j = i := by simpa using h
      exact ⟨hj, fun hc ht => hn ⟨hc, ht⟩⟩

/-- A ready block runs the next request it receives. -/
theorem step_fetch {s : State} {q : Issued} {rest : List Issued} {i : Instr} (hr : s.ready = true)
    (hq : s.requests = q :: rest) (ha : receive q = .ok i) : step s = exec i { s with requests := rest } := by
  rw [step, if_pos hr]
  simp [fetch, hq, ha]

/-- A ready block refuses the next request it does not receive. -/
theorem step_refuse {s : State} {q : Issued} {rest : List Issued} {r : Refusal} (hr : s.ready = true)
    (hq : s.requests = q :: rest) (ha : receive q = .error r) : step s = .refused r := by
  rw [step, if_pos hr]
  simp [fetch, hq, ha]

/-- A ready block with no request waits. -/
theorem step_wait {s : State} (hr : s.ready = true) (hq : s.requests = []) : step s = .next s := by
  rw [step, if_pos hr]
  simp [fetch, hq]

/-- Everything a step can do. -/
theorem step_did {s u : State} (h : step s = .next u) :
    u = s ∨ (∃ i q rest, s.ready = true ∧ s.requests = q :: rest ∧ receive q = .ok i ∧
        exec i { s with requests := rest } = .next u) ∨
      (s.ready = false ∧ s.cfg.wf = true ∧ advance s = .next u) := by
  unfold step at h
  split at h
  · next hr =>
    unfold fetch at h
    cases hq : s.requests with
    | nil => exact .inl (by simpa [hq] using h.symm)
    | cons q rest =>
      cases hd : receive q with
      | error e => exact absurd h (by simp [hq, hd])
      | ok i => exact .inr (.inl ⟨i, q, rest, hr, rfl, hd, by simpa [hq, hd] using h⟩)
  · next hr =>
    obtain ⟨hw, h⟩ := whenLegal_eq_next h
    exact .inr (.inr ⟨by simpa using hr, hw, h⟩)

/-- Everything `settle` can do. -/
theorem settle_cases (a : DrvAnswer) (s : State) :
    (s.phase = .transmit ∧ settle a s = finish a.status s) ∨
      (s.phase ≠ .transmit ∧ settle a s = respond (.transmitted a.result) s) := by
  by_cases h : s.phase = .transmit
  · exact .inl ⟨h, settle_transmit h⟩
  · exact .inr ⟨h, settle_alone h⟩

/-- Everything phase COMPOSE can do. -/
theorem composeStage_cases (s : State) :
    (∃ e : Err, composeStage s = finish e.status s) ∨
      ∃ b : Bits, composeStage s = { s with cmd := b, phase := .encode } := by
  unfold composeStage composed
  split
  · exact .inl ⟨_, rfl⟩
  · exact .inr ⟨_, rfl⟩

/-- Everything phase SYNTH can do. -/
theorem synthStage_cases (s : State) :
    synthStage s = finish .ok s ∨
      (synthesize s.cfg s.rl ≠ [] ∧ synthStage s = { s with pulses := synthesize s.cfg s.rl, phase := .transmit }) := by
  by_cases h : synthesize s.cfg s.rl = []
  · exact .inl (synthStage_of_nil h)
  · exact .inr ⟨h, synthStage_of_ne h⟩

/-- Everything the work of a phase can do. -/
theorem advance_cases {s u : State} (h : advance s = .next u) :
    u = s ∨
    (∃ w a rest, s.inFlight = some w ∧ s.answers = a :: rest ∧ u = settle a (takeAnswer w a rest s)) ∨
    (s.inFlight = none ∧
      ((s.phase = .compose ∧ u = composeStage s) ∨ (s.phase = .encode ∧ u = encodeStage s) ∨
        (s.phase = .synth ∧ u = synthStage s) ∨
        (s.phase = .transmit ∧ play ⟨s.cfg.outputLine, s.pulses⟩ s = .next u))) := by
  cases hf : s.inFlight with
  | some w =>
    rw [advance_flight hf] at h
    rcases driverStep_cases s with h' | ⟨w', a, rest, hf', ha, h'⟩
    · left; rw [h'] at h; simpa using h.symm
    · rw [h'] at h; right; left; exact ⟨w', a, rest, by rw [← hf, hf'], ha, by simpa using h.symm⟩
  | none =>
    cases hp : s.phase with
    | idle => rw [advance_idle hf hp] at h; left; simpa using h.symm
    | compose => rw [advance_compose hf hp] at h; simp at h; simp [h]
    | encode => rw [advance_encode hf hp] at h; simp at h; simp [h]
    | synth => rw [advance_synth hf hp] at h; simp at h; simp [h]
    | transmit => rw [advance_transmit hf hp] at h; simp [h]

end Sys2Proof.Machine
end

