-- ==== Sys2Proof/Tests/Slice0.lean ====
section
/-! SUPPORT. The model's own tests: ill-formed terms that WellFormed refuses, code words written out from
30_encoding.md, the vectors of 95_test_vectors.md (named V-...), and for every obligation with hypotheses a witness
that meets them. Expected values are the spec's. -/

set_option Elab.async false

namespace Sys2Proof.Tests

open Sys2Proof Sys2Proof.Machine

/-! ### Fixtures (95_test_vectors.md, section 0) -/

/-- Catalog fixture F1. -/
def f1 : Memory := Memory.ofEntries
  [(.base, ['R', 'E', 'D'], [1, 1, 1, 0, 0, 1]), (.base, ['G', 'R', 'E', 'E', 'N'], [1, 0, 1, 1, 0, 0, 0, 1]), (.base, ['Z', 'L', 'E', 'A', 'D'], [0, 0, 1, 0]),
   (.tail, ['F', 'A', 'D', 'E'], [0, 1, 1]), (.tail, ['B', 'L', 'I', 'N', 'K'], [1, 0]),
   (.special, ['O', 'F', 'F'], [1, 0, 0, 0, 0, 1, 1]), (.special, ['E', 'M', 'P', 'T', 'Y'], [])]

/-- Catalog fixture F2. -/
def f2 : Memory := Memory.ofEntries
  [(.base, ['B', 'O', 'T', 'H'], [1, 0]), (.base, ['N', 'I', 'L'], []),
   (.tail, ['B', 'O', 'T', 'H'], [0, 0, 1]), (.tail, ['N', 'I', 'L'], []), (.tail, [], [1]),
   (.special, ['B', 'O', 'T', 'H'], [1, 1, 1]), (.special, ['O', 'N', 'L', 'Y', 'S'], [0, 1])]

/-- A configuration with a table, a pulse unit and a carrier. -/
def cfg (m : Memory) (unit hz : Rat) : Config :=
  { table := m
    pulseUnitUs := unit
    carrierHz := hz
    outputLine := ⟨7⟩
    interCommandWait := 5
    debug := true
    marginPerBit := 2
    chars := asciiChars }

/-- F1 at CFG-A, CFG-C; F2 at CFG-D; the carrier of CFG-J and CFG-K. -/
def cfgA : Config := cfg f1 700 38000
def cfgC : Config := cfg f1 10 38000
def cfgD : Config := cfg f2 25 40000
def cfgJ : Config := cfg f1 (500 / 19) 38000
def cfgK : Config := cfg f1 (250 / 19) 38000

/-- The block after reset with a configuration, and the answers its driver will give. -/
def block (c : Config) (answers : List DrvAnswer) : State := { State.resetWith c with answers := answers }

/-- A block in the middle of a SEND. -/
def busy (c : Config) : State := { block c [] with phase := .encode }

/-- A block about to run a request of the caller. -/
def asked (q : Request) : State := { block cfgA [.done] with requests := [⟨.caller, q⟩] }

/-- One field of the next state. -/
def next? {α : Type} (f : State → α) : Out → Option α
  | .next s    => some (f s)
  | .fault _   => none
  | .refused _ => none

/-- The reason of a refusal. -/
def refused? : Out → Option Refusal
  | .next _    => none
  | .fault _   => none
  | .refused r => some r

theorem fixtures_wf : cfgA.wf = true ∧ cfgC.wf = true ∧ cfgD.wf = true ∧ cfgJ.wf = true ∧ cfgK.wf = true := by
  decide +kernel

theorem fixtures_canonical : f1.wf ∧ f2.wf := by decide

/-! ### WellFormed: each check refuses an ill-formed term and passes its boundary -/

theorem test_wellformed_zero_run : (Instr.synthesize [3, 0, 1]).illTyped = some .zeroRunLength ∧
    (Instr.synthesize [3, 0, 1]).wf = false ∧ (Instr.synthesize [1]).wf = true := by decide

theorem test_wellformed_negative_duration :
    (Instr.transmit [⟨.on, 1⟩, ⟨.off, -1⟩] ⟨0⟩).illTyped = some .negativeDuration ∧
    (Instr.transmit [⟨.on, 1⟩, ⟨.off, -1⟩] ⟨0⟩).wf = false ∧ (Instr.transmit [⟨.off, 0⟩] ⟨0⟩).wf = true := by
  decide +kernel

theorem test_decode_refuses_ill_typed :
    decode ⟨⟨.phase3, 3⟩, .runs [0]⟩ = .error (.illTyped .zeroRunLength) ∧
    decode ⟨⟨.phase3, 4⟩, .pulses [⟨.on, -1⟩] ⟨0⟩⟩ = .error (.illTyped .negativeDuration) := by decide +kernel

/-! ### Decode: every constructor by a word written out from R78, R80, R81 -/

theorem test_decode_lookup :
    decode ⟨⟨.cat2, 0b00⟩, .name ['R', 'E', 'D']⟩ = .ok (.lookupBase ['R', 'E', 'D']) ∧
    decode ⟨⟨.cat2, 0b01⟩, .name ['R', 'E', 'D']⟩ = .ok (.lookupTail ['R', 'E', 'D']) ∧
    decode ⟨⟨.cat2, 0b10⟩, .name ['R', 'E', 'D']⟩ = .ok (.lookupSpecial ['R', 'E', 'D']) := by decide

theorem test_decode_stages :
    decode ⟨⟨.phase3, 0b000⟩, .command ['R', 'E', 'D'] (some ['F', 'A', 'D', 'E'])⟩ = .ok (.send ['R', 'E', 'D'] (some ['F', 'A', 'D', 'E'])) ∧
    decode ⟨⟨.phase3, 0b001⟩, .command ['R', 'E', 'D'] none⟩ = .ok (.compose ['R', 'E', 'D'] none) ∧
    decode ⟨⟨.phase3, 0b010⟩, .bits [0, 1]⟩ = .ok (.encode [0, 1]) ∧
    decode ⟨⟨.phase3, 0b011⟩, .runs [2, 1]⟩ = .ok (.synthesize [2, 1]) ∧
    decode ⟨⟨.phase3, 0b100⟩, .pulses [] ⟨7⟩⟩ = .ok (.transmit [] ⟨7⟩) := by decide

/-- HB HS TP HT of R77 written out, the don't-care bits of R78 at both values. -/
theorem test_decode_classes :
    decode ⟨⟨.k4, 0b1000⟩, .command ['A'] none⟩ = .ok (.sendBase ['A']) ∧
    decode ⟨⟨.k4, 0b1101⟩, .command ['A'] none⟩ = .ok (.sendBase ['A']) ∧
    decode ⟨⟨.k4, 0b1011⟩, .command ['A'] (some ['T'])⟩ = .ok (.sendBaseTail ['A'] ['T']) ∧
    decode ⟨⟨.k4, 0b1110⟩, .command ['A'] (some ['T'])⟩ = .ok (.sendBadTail ['A'] ['T']) ∧
    decode ⟨⟨.k4, 0b0100⟩, .command ['A'] none⟩ = .ok (.sendSpecial ['A']) ∧
    decode ⟨⟨.k4, 0b0111⟩, .command ['A'] (some ['T'])⟩ = .ok (.sendSpecialTail ['A'] ['T']) ∧
    decode ⟨⟨.k4, 0b0001⟩, .command ['A'] none⟩ = .ok (.sendUnknown ['A'] none) ∧
    decode ⟨⟨.k4, 0b0010⟩, .command ['A'] (some ['T'])⟩ = .ok (.sendUnknown ['A'] (some ['T'])) := by decide

theorem test_decode_refusals :
    decode ⟨⟨.cat2, 3⟩, .name ['A']⟩ = .error .unallocated ∧ decode ⟨⟨.phase3, 5⟩, .bits []⟩ = .error .unallocated ∧
    decode ⟨⟨.phase3, 7⟩, .bits []⟩ = .error .unallocated ∧ decode ⟨⟨.cat2, 4⟩, .name ['A']⟩ = .error .codeTooWide ∧
    decode ⟨⟨.k4, 16⟩, .command ['A'] none⟩ = .error .codeTooWide ∧
    decode ⟨⟨.k4, 0b1000⟩, .command ['A'] (some ['T'])⟩ = .error .tailPresence ∧
    decode ⟨⟨.k4, 0b1011⟩, .command ['A'] none⟩ = .error .tailPresence ∧
    decode ⟨⟨.phase3, 2⟩, .name ['A']⟩ = .error .wrongOperands := by decide

theorem test_table_words :
    decodeTableWord 2 1 = some (.lookupTail []) ∧ decodeTableWord 3 1 = some (.compose [] none) ∧
    decodeTableWord 4 1 = some (.sendUnknown [] none) ∧ decodeTableWord 8 0xB = some (.sendBaseTail [] []) ∧
    decodeTableWord 3 5 = none := by decide

/-! ### Names (V-NRM) -/

theorem test_norm : norm asciiChars [' ', 'r', 'e', 'd', ' '] = ['R', 'E', 'D'] ∧ norm asciiChars [Char.ofNat 0x09, 'G', 'r', 'e', 'e', 'n', Char.ofNat 0x0A] = ['G', 'R', 'E', 'E', 'N'] ∧
    norm asciiChars [' ', ' ', ' '] = [] ∧ norm asciiChars ['n', 'o', 't', ' ', 'a', ' ', 't', 'a', 'i', 'l'] = ['N', 'O', 'T', ' ', 'A', ' ', 'T', 'A', 'I', 'L'] ∧
    norm asciiChars ['n', 'o', 't', '_', 'a', '_', 't', 'a', 'i', 'l'] = ['N', 'O', 'T', '_', 'A', '_', 'T', 'A', 'I', 'L'] := by decide

/-! ### LOOKUP (V-LKP) -/

/-- V-LKP-2, V-LKP-6. -/
theorem test_lookup_base :
    next? (·.returned) (exec (.lookupBase [' ', 'r', 'e', 'd', ' ']) (block cfgA [])) = some [.found (some [1, 1, 1, 0, 0, 1])] ∧
    next? (·.returned) (exec (.lookupBase ['F', 'A', 'D', 'E']) (block cfgA [])) = some [.found none] := by decide +kernel

/-- V-LKP-5, V-LKP-9. -/
theorem test_lookup_tail :
    next? (·.returned) (exec (.lookupTail ['b', 'l', 'i', 'n', 'k']) (block cfgA [])) = some [.found (some [1, 0])] ∧
    next? (·.returned) (exec (.lookupTail [' ', ' ']) (block cfgD [])) = some [.found (some [1])] := by decide +kernel

/-- V-LKP-7, V-LKP-4. -/
theorem test_lookup_special :
    next? (·.returned) (exec (.lookupSpecial ['e', 'm', 'p', 't', 'y']) (block cfgA [])) = some [.found (some [])] ∧
    next? (·.returned) (exec (.lookupSpecial ['R', 'E', 'D']) (block cfgA [])) = some [.found none] := by decide +kernel

/-! ### COMPOSE (V-CMP) -/

/-- V-CMP-2, V-CMP-8, V-CMP-16, V-CMP-6. -/
theorem test_compose_f1 :
    compose cfgA [' ', 'r', 'e', 'd', ' '] (some [' ', 'b', 'l', 'i', 'n', 'k']) = .ok [1, 1, 1, 0, 0, 1, 1, 0] ∧
    compose cfgA ['N', 'O', 'N', 'E', 'X', 'I', 'S', 'T', 'E', 'N', 'T'] (some ['N', 'O', 'T', '_', 'A', '_', 'T', 'A', 'I', 'L']) = .err .unknownEffect ∧
    compose cfgA ['R', 'E', 'D'] (some []) = .err .invalidTailCode ∧
    compose cfgA ['O', 'F', 'F'] (some ['N', 'O', 'T', '_', 'A', '_', 'T', 'A', 'I', 'L']) = .err .tailCodeNotSupported := by decide

/-- V-CMP-20, V-CMP-21, V-CMP-27, and the result handed to the caller. -/
theorem test_compose_f2 :
    compose cfgD ['B', 'O', 'T', 'H'] none = .ok [1, 0] ∧ compose cfgD ['B', 'O', 'T', 'H'] (some ['B', 'O', 'T', 'H']) = .ok [1, 0, 0, 0, 1] ∧
    compose cfgD ['N', 'I', 'L'] (some []) = .ok [1] ∧
    next? (·.returned) (exec (.compose ['O', 'N', 'L', 'Y', 'S'] none) (block cfgD [])) = some [.composed (.ok [0, 1])] := by
  decide +kernel

/-- K of V-CMP-1, 2, 3, 4, 5, 9, 20, 21, 22. -/
theorem test_decode_vector :
    decodeVector cfgA ['R', 'E', 'D'] none = 0x8 ∧ decodeVector cfgA [' ', 'r', 'e', 'd', ' '] (some [' ', 'b', 'l', 'i', 'n', 'k']) = 0xB ∧
    decodeVector cfgA ['R', 'E', 'D'] (some ['N', 'O', 'T', '_', 'A', '_', 'T', 'A', 'I', 'L']) = 0xA ∧ decodeVector cfgA ['O', 'F', 'F'] none = 0x4 ∧
    decodeVector cfgA ['O', 'F', 'F'] (some ['F', 'A', 'D', 'E']) = 0x7 ∧ decodeVector cfgA ['N', 'O', 'N', 'E', 'X', 'I', 'S', 'T', 'E', 'N', 'T'] (some ['F', 'A', 'D', 'E']) = 0x3 ∧
    decodeVector cfgD ['B', 'O', 'T', 'H'] none = 0xC ∧ decodeVector cfgD ['B', 'O', 'T', 'H'] (some ['B', 'O', 'T', 'H']) = 0xF ∧
    decodeVector cfgD ['B', 'O', 'T', 'H'] (some ['X']) = 0xE := by decide

/-! ### ENCODE (V-ENC) -/

/-- V-ENC-1, 3, 5, 6, 14. -/
theorem test_encode : rleEncode [] = [] ∧ rleEncode [0] = [1] ∧ rleEncode [0, 0, 0, 1, 1, 0] = [3, 2, 1] ∧
    rleEncode [0, 0, 1, 0] = [2, 1, 1] ∧ rleEncode [0, 0, 1, 0, 0, 1, 1] = [2, 1, 2, 2] := by decide

/-- V-ENC-10. -/
theorem test_encode_exec :
    next? (·.returned) (exec (.encode [1, 1, 1, 0, 0, 1, 1, 0]) (block cfgA [])) = some [.encoded [3, 2, 2, 1]] := by
  decide +kernel

/-! ### SYNTHESIZE (V-SYN) -/

/-- V-SYN-12 (CFG-E). -/
theorem test_synthesize_remainders :
    next? (·.returned) (exec (.synthesize [1, 1, 1]) (block (cfg f1 (75 / 2) 40000) [])) =
      some [.synthesized [⟨.on, 25 / 2⟩, ⟨.off, 25 / 2⟩, ⟨.on, 25 / 2⟩, ⟨.off, 75 / 2⟩, ⟨.on, 25 / 2⟩,
        ⟨.off, 25 / 2⟩, ⟨.on, 25 / 2⟩]] := by decide +kernel

/-- V-SYN-6, V-SYN-7, V-SYN-8, V-SYN-11: the boundary of the floor, and neighbours of equal level. -/
theorem test_synthesize_boundaries :
    synthesize cfgK [1] = [⟨.on, 250 / 19⟩] ∧ synthesize cfgJ [1] = [⟨.on, 250 / 19⟩, ⟨.off, 250 / 19⟩] ∧
    synthesize (cfg f1 30 38000) [1] = [⟨.on, 250 / 19⟩, ⟨.off, 250 / 19⟩, ⟨.on, 70 / 19⟩] ∧
    synthesize cfgD [2, 1] = [⟨.on, 25 / 2⟩, ⟨.off, 25 / 2⟩, ⟨.on, 25 / 2⟩, ⟨.off, 25 / 2⟩, ⟨.off, 25⟩] := by
  decide +kernel

/-! ### TRANSMIT (V-TRN) -/

/-- V-TRN-1: the result, the one call, STATUS not written (it holds a failure from before). -/
theorem test_transmit_done :
    next? (fun s => (s.returned, s.driverCalls, s.status, s.lineSaw))
      (exec (.transmit [⟨.on, 10⟩] ⟨7⟩) { block cfgA [.done] with status := .transmissionFailure }) =
    some ([.transmitted (.ok ())], [⟨⟨⟨7⟩, [⟨.on, 10⟩]⟩, .done⟩], .transmissionFailure, [[⟨.on, 10⟩]]) := by
  decide +kernel

/-- V-TRN-2. -/
theorem test_transmit_failed :
    next? (fun s => (s.returned, s.status, s.lineSaw)) (exec (.transmit [⟨.on, 10⟩] ⟨7⟩) (block cfgA [.failed])) =
    some ([.transmitted (.err .transmissionFailure)], .ok, []) := by decide +kernel

/-! ### SEND and its classes (V-SND) -/

/-- V-SND-9. -/
theorem test_send_done :
    next? (fun s => (s.returned, s.status, s.phase, s.lineSaw)) (exec (.send ['Z', 'L', 'E', 'A', 'D'] none) (block cfgC [.done])) =
    some ([.sent (.ok ())], .ok, .idle, [[⟨.on, 20⟩, ⟨.off, 10⟩, ⟨.on, 10⟩]]) := by decide +kernel

/-- V-SND-2 at CFG-C, V-SND-6. -/
theorem test_send_failed_and_empty :
    next? (fun s => (s.returned, s.status, s.driverCalls.length, s.lineSaw))
      (exec (.send ['R', 'E', 'D'] none) (block cfgC [.failed])) =
      some ([.sent (.err .transmissionFailure)], .transmissionFailure, 1, []) ∧
    next? (fun s => (s.returned, s.driverCalls)) (exec (.send ['E', 'M', 'P', 'T', 'Y'] none) (block cfgC [])) =
      some ([.sent (.ok ())], []) := by decide +kernel

/-- V-CMP-20 (K = 0xC) sent: base wins over special. -/
theorem test_send_base :
    next? (fun s => (s.returned, s.main, s.lineSaw)) (exec (.sendBase ['b', 'o', 't', 'h']) (block cfgD [.done])) =
    some ([.sent (.ok ())], ['b', 'o', 't', 'h'], [[⟨.on, 25 / 2⟩, ⟨.off, 25 / 2⟩, ⟨.off, 25⟩]]) := by decide +kernel

/-- V-SND-14 (V-SYN-23). -/
theorem test_send_base_tail :
    next? (fun s => (s.returned, s.lineSaw)) (exec (.sendBaseTail ['B', 'O', 'T', 'H'] ['B', 'O', 'T', 'H']) (block cfgD [.done])) =
    some ([.sent (.ok ())],
      [[⟨.on, 25 / 2⟩, ⟨.off, 25 / 2⟩, ⟨.off, 75⟩, ⟨.on, 25 / 2⟩, ⟨.off, 25 / 2⟩]]) := by decide +kernel

/-- V-SND-4. -/
theorem test_send_bad_tail :
    next? (fun s => (s.returned, s.status, s.driverCalls)) (exec (.sendBadTail ['R', 'E', 'D'] ['N', 'O', 'T', '_', 'A', '_', 'T', 'A', 'I', 'L']) (block cfgA [])) =
    some ([.sent (.err .invalidTailCode)], .invalidTailCode, []) := by decide +kernel

/-- The special entry ONLYS of F2 at CFG-D: mark 25, space 25. -/
theorem test_send_special :
    next? (fun s => (s.returned, s.lineSaw)) (exec (.sendSpecial ['O', 'N', 'L', 'Y', 'S']) (block cfgD [.done])) =
    some ([.sent (.ok ())], [[⟨.on, 25 / 2⟩, ⟨.off, 25 / 2⟩, ⟨.off, 25⟩]]) := by decide +kernel

/-- V-SND-5. -/
theorem test_send_special_tail :
    next? (fun s => (s.returned, s.status, s.driverCalls)) (exec (.sendSpecialTail ['O', 'F', 'F'] ['F', 'A', 'D', 'E']) (block cfgA [])) =
    some ([.sent (.err .tailCodeNotSupported)], .tailCodeNotSupported, []) := by decide +kernel

/-- V-SND-3, V-CMP-9. -/
theorem test_send_unknown :
    next? (fun s => (s.returned, s.status)) (exec (.sendUnknown ['N', 'O', 'N', 'E', 'X', 'I', 'S', 'T', 'E', 'N', 'T'] none) (block cfgA [])) =
      some ([.sent (.err .unknownEffect)], .unknownEffect) ∧
    next? (·.tail) (exec (.sendUnknown ['N', 'O', 'N', 'E', 'X', 'I', 'S', 'T', 'E', 'N', 'T'] (some ['F', 'A', 'D', 'E'])) (block cfgA [])) = some (some ['F', 'A', 'D', 'E']) := by
  decide +kernel

/-- V-SND-15; R78: a row the vector does not select; R213. -/
theorem test_send_stops :
    refused? (exec (.send ['R', 'E', 'D'] none) (busy cfgA)) = some .busy ∧
    refused? (exec (.sendSpecial ['B', 'O', 'T', 'H']) (block cfgD [])) = some .rowNotSelected ∧
    refused? (exec (.send ['R', 'E', 'D'] none) (block (cfg f1 0 38000) [])) = some .illFormedConfig := by decide +kernel

/-! ### The step -/

/-- A request runs at the next step; a word placed by `withFetchWord` runs as the first instruction. -/
theorem test_step_runs :
    next? (·.returned) (step { block cfgA [] with requests := [⟨.caller, ⟨⟨.cat2, 1⟩, .name ['f', 'a', 'd', 'e']⟩⟩] }) =
      some [.found (some [0, 1, 1])] ∧
    next? (·.returned) (step (State.reset.withFetchWord 8 0x8)) = some [.sent (.ok ())] ∧
    next? (·.returned) (step (State.reset.withFetchWord 4 0x6)) = some [.sent (.err .tailCodeNotSupported)] ∧
    next? (·.returned) (step (State.reset.withFetchWord 2 0x2)) = some [.found none] := by decide +kernel

/-- R225: the caller's TRANSMIT is refused, the test bench's runs (V-TRN-1). -/
theorem test_step_transmit :
    refused? (step (asked ⟨⟨.phase3, 4⟩, .pulses [⟨.on, 10⟩] ⟨7⟩⟩)) = some .driverOnlyThroughSend ∧
    next? (·.returned) (step { block cfgA [.done] with
      requests := [⟨.bench, ⟨⟨.phase3, 4⟩, .pulses [⟨.on, 10⟩] ⟨7⟩⟩⟩] }) = some [.transmitted (.ok ())] := by
  decide +kernel

theorem test_step_refuses :
    refused? (step (State.reset.withFetchWord 3 5)) = some (.undecodable .unallocated) ∧
    State.construct (cfg f1 700 0) = .refused .illFormedConfig := ⟨by decide +kernel, rfl⟩

/-- PROG2's text forms (R90). -/
theorem test_parse : parseCommand asciiChars [' ', 'r', 'e', 'd', ' ', ' ', 'b', 'l', 'i', 'n', 'k'] = some (['r', 'e', 'd'], some ['b', 'l', 'i', 'n', 'k']) ∧
    parseCommand asciiChars ['O', 'F', 'F'] = some (['O', 'F', 'F'], none) ∧ parseCommand asciiChars [' '] = none := by decide

/-! ### Witnesses of the obligations' hypotheses -/

theorem witness_unallocated_codes : 5 ≤ 5 ∧ 5 < 8 ∧ 5 ≤ 7 ∧ 7 < 8 := by decide

theorem witness_round_trip : (Instr.synthesize [1]).wf = true ∧ (Instr.transmit [⟨.off, 0⟩] ⟨0⟩).wf = true ∧
    (Instr.sendUnknown [] none).wf = true ∧ (Instr.sendUnknown [] (some [])).wf = true := by decide +kernel

/-- A code that is not the encoder's: HS set in SEND.BASE. -/
theorem witness_decode_encode : decode ⟨⟨.k4, 0xC⟩, .command [] none⟩ = .ok (.sendBase []) ∧
    (encode (.sendBase [])).word.code = 0x8 := by decide

theorem witness_character_laws : charLaws asciiChars = true := by decide

/-- For every statement whose only hypothesis is a well-formed configuration or, beside it, a list of positive
counts or a non-negative duration. -/
theorem witness_config : cfgA.wf = true ∧ (∀ n ∈ [3, 2, 1], 0 < n) ∧ (0 : Rat) ≤ 2100 := by decide +kernel

theorem witness_empty_tail : cfgA.wf = true ∧ cfgD.wf = true ∧
    lookup cfgA .base ['R', 'E', 'D'] = some [1, 1, 1, 0, 0, 1] ∧ cfgA.table.read .tail [] = none ∧
    lookup cfgD .base ['N', 'I', 'L'] = some [] ∧ cfgD.table.read .tail [] = some [1] := by decide +kernel

theorem witness_load : (Cat.tail ≠ Cat.base ∨ ['A'] ≠ ['A']) ∧ (Cat.base ≠ Cat.base ∨ ['A'] ≠ ['A', 'B']) := by decide

/-- Two tables declared in another order are the same table. -/
theorem witness_canonical : f1.wf ∧ f2.wf ∧
    (Memory.ofEntries [(.base, ['B'], [1]), (.base, ['A'], [0])]).wf ∧
    Memory.ofEntries [(.base, ['B'], [1]), (.base, ['A'], [0])] =
      Memory.ofEntries [(.base, ['A'], [0]), (.base, ['B'], [1])] := by decide

theorem witness_chain : cfgA.wf = true ∧ cfgD.wf = true ∧
    lookup cfgA .base ['R', 'E', 'D'] = some [1, 1, 1, 0, 0, 1] ∧ lookup cfgA .tail ['F', 'A', 'D', 'E'] = some [0, 1, 1] ∧
    lookup cfgA .tail ['N', 'O', 'T', '_', 'A', '_', 'T', 'A', 'I', 'L'] = none ∧
    lookup cfgA .base ['O', 'F', 'F'] = none ∧ lookup cfgA .special ['O', 'F', 'F'] = some [1, 0, 0, 0, 0, 1, 1] ∧
    lookup cfgA .base ['N', 'O', 'N', 'E', 'X', 'I', 'S', 'T', 'E', 'N', 'T'] = none ∧ lookup cfgA .special ['N', 'O', 'N', 'E', 'X', 'I', 'S', 'T', 'E', 'N', 'T'] = none := by decide +kernel

/-- One command for each class row. -/
theorem witness_vector_classes :
    classSelected .sendBase (decodeVector cfgD ['B', 'O', 'T', 'H'] none) = true ∧
    classSelected .sendBaseTail (decodeVector cfgD ['B', 'O', 'T', 'H'] (some ['B', 'O', 'T', 'H'])) = true ∧
    classSelected .sendBadTail (decodeVector cfgD ['B', 'O', 'T', 'H'] (some ['X'])) = true ∧
    classSelected .sendSpecial (decodeVector cfgD ['O', 'N', 'L', 'Y', 'S'] none) = true ∧
    classSelected .sendSpecialTail (decodeVector cfgD ['O', 'N', 'L', 'Y', 'S'] (some ['B', 'O', 'T', 'H'])) = true ∧
    classSelected .sendUnknown (decodeVector cfgD [] (some [])) = true := by decide

theorem witness_scan : cfgA.wf = true ∧ rleScan none [] [0, 0] = [2] ∧ rleScan none [] [0, 1] = [1, 1] := by
  decide +kernel

theorem witness_runs : ([0] : Bits) ≠ [] ∧ (rleEncode [0, 1]).length = ([0, 1] : Bits).length ∧ 0 < 1 := by decide

/-- A short mark (CFG-C, 2 units; CFG-K, 1 unit) and a whole one (CFG-J, one period). -/
theorem witness_marks : cfgC.wf = true ∧ cfgJ.wf = true ∧ cfgK.wf = true ∧ 0 < 1 ∧
    runUs cfgC 2 < periodUs cfgC ∧ runUs cfgK 1 < periodUs cfgK ∧
    runUs cfgJ 1 = (1 : Nat) * periodUs cfgJ := by decide +kernel

theorem witness_source_scenario : cfgA.pulseUnitUs = 700 ∧ cfgA.carrierHz = 38000 := by decide +kernel

theorem witness_transmit : (block cfgA [.failed]).cfg.wf = true ∧ (block cfgA [.failed]).phase = .idle ∧
    (block cfgA [.failed]).inFlight = none ∧ (block cfgA [.failed]).lineHeld = true ∧
    (∀ p ∈ [Pulse.mk .on 10, Pulse.mk .off 0], 0 ≤ p.dur) ∧ (block cfgA [.failed]).answers = .failed :: [] ∧
    (block cfgA []).answers = [] := by decide +kernel

theorem witness_stops : cfgA.wf = true ∧ 0 ∈ [0] ∧ (∃ p ∈ [Pulse.mk .on (-1)], p.dur < 0) ∧
    (∀ p ∈ [Pulse.mk .on 0], 0 ≤ p.dur) ∧ (⟨8⟩ : LineId) ≠ cfgA.outputLine ∧
    (busy cfgA).cfg.wf = true ∧ (busy cfgA).phase ≠ .idle ∧
    (let dropped : State := { block cfgA [] with lineHeld := false }
     dropped.cfg.wf = true ∧ dropped.phase = .idle ∧ dropped.inFlight = none ∧ dropped.lineHeld = false ∧
       compose dropped.cfg ['R', 'E', 'D'] none = .ok [1, 1, 1, 0, 0, 1] ∧ ([1, 1, 1, 0, 0, 1] : Bits) ≠ []) := by
  decide +kernel

/-- Each composition error, the empty command, a command with bits. -/
theorem witness_send : (block cfgA [.done]).cfg.wf = true ∧ (block cfgA [.done]).phase = .idle ∧
    (block cfgA [.done]).inFlight = none ∧ (block cfgA [.done]).lineHeld = true ∧
    (block cfgA [.done]).answers = .done :: [] ∧ (block cfgA []).answers = [] ∧
    compose cfgA ['N', 'O', 'N', 'E', 'X', 'I', 'S', 'T', 'E', 'N', 'T'] none = .err .unknownEffect ∧ compose cfgA ['R', 'E', 'D'] (some []) = .err .invalidTailCode ∧
    compose cfgA ['O', 'F', 'F'] (some []) = .err .tailCodeNotSupported ∧ compose cfgA ['E', 'M', 'P', 'T', 'Y'] none = .ok [] ∧
    compose cfgA ['R', 'E', 'D'] none = .ok [1, 1, 1, 0, 0, 1] ∧ ([1, 1, 1, 0, 0, 1] : Bits) ≠ [] := by decide +kernel

/-- A block busy by its phase and one busy by a waveform in flight. -/
theorem witness_busy : (busy cfgA).cfg.wf = true ∧ (busy cfgA).phase ≠ .idle ∧
    (let playing : State := { block cfgA [] with inFlight := some ⟨⟨7⟩, []⟩ }
     playing.cfg.wf = true ∧ playing.inFlight ≠ none) := by decide +kernel

theorem witness_error_classes : (block cfgA []).cfg.wf = true ∧ (block cfgA []).phase = .idle ∧
    (block cfgA []).inFlight = none ∧
    lookup cfgA .base ['R', 'E', 'D'] = some [1, 1, 1, 0, 0, 1] ∧ lookup cfgA .tail ['O', 'F', 'F'] = none ∧
    lookup cfgA .base ['O', 'F', 'F'] = none ∧ lookup cfgA .special ['O', 'F', 'F'] = some [1, 0, 0, 0, 0, 1, 1] ∧
    lookup cfgA .base ['F', 'A', 'D', 'E'] = none ∧ lookup cfgA .special ['F', 'A', 'D', 'E'] = none := by decide +kernel

theorem witness_command_classes : (block cfgD [.done]).cfg.wf = true ∧ (block cfgD [.done]).phase = .idle ∧
    (block cfgD [.done]).inFlight = none ∧ (block cfgD [.done]).lineHeld = true ∧
    (block cfgD [.done]).answers = .done :: [] ∧
    lookup cfgD .base ['B', 'O', 'T', 'H'] = some [1, 0] ∧ lookup cfgD .tail ['N', 'I', 'L'] = some [] ∧
    lookup cfgD .base ['N', 'I', 'L'] = some [] ∧
    lookup cfgD .base ['O', 'N', 'L', 'Y', 'S'] = none ∧ lookup cfgD .special ['O', 'N', 'L', 'Y', 'S'] = some [0, 1] := by decide +kernel

/-- A ready block with no request, as `PhaseByPhaseIsSend` and `TheBlockWaits` ask. -/
theorem witness_ready : (block cfgA []).cfg.wf = true ∧ (block cfgA []).phase = .idle ∧
    (block cfgA []).inFlight = none ∧ (block cfgA []).requests = [] ∧ (block cfgA []).ready = true := by decide +kernel

/-- A ready block with a past of its own: another last command, another STATUS, results and calls. -/
def older : State :=
  { block cfgA [.done] with
    main := ['O', 'F', 'F']
    status := .transmissionFailure
    returned := [.sent (.err .transmissionFailure)]
    driverCalls := [⟨⟨⟨7⟩, [⟨.on, 1⟩]⟩, .failed⟩] }

theorem witness_forgets : (block cfgA [.done]).ready = true ∧ older.ready = true ∧ older.cfg = (block cfgA [.done]).cfg ∧
    older.lineHeld = (block cfgA [.done]).lineHeld ∧ older.answers = (block cfgA [.done]).answers ∧
    next? (·.phase) (exec (.send ['R', 'E', 'D'] none) (block cfgA [.done])) = some .idle ∧
    next? (·.phase) (exec (.send ['R', 'E', 'D'] none) older) = some .idle := by decide +kernel

theorem witness_step : (asked ⟨⟨.k4, 8⟩, .command ['R', 'E', 'D'] none⟩).phase = .idle ∧
    (asked ⟨⟨.k4, 8⟩, .command ['R', 'E', 'D'] none⟩).inFlight = none ∧
    (asked ⟨⟨.k4, 8⟩, .command ['R', 'E', 'D'] none⟩).requests = ⟨.caller, ⟨⟨.k4, 8⟩, .command ['R', 'E', 'D'] none⟩⟩ :: [] ∧
    decode ⟨⟨.k4, 8⟩, .command ['R', 'E', 'D'] none⟩ = .ok (.sendBase ['R', 'E', 'D']) ∧ (Instr.sendBase ['R', 'E', 'D']).op ≠ .transmit ∧
    decode ⟨⟨.phase3, 4⟩, .pulses [] ⟨7⟩⟩ = .ok (.transmit [] ⟨7⟩) ∧ (Instr.transmit [] ⟨7⟩).op = .transmit := by decide +kernel

theorem witness_waits : (sendWaiting ['R', 'E', 'D'] none [1] (block cfgA [])).cfg.wf = true ∧
    (sendWaiting ['R', 'E', 'D'] none [1] (block cfgA [])).inFlight =
      some ⟨⟨7⟩, synthesize cfgA (rleEncode [1])⟩ ∧
    (sendWaiting ['R', 'E', 'D'] none [1] (block cfgA [])).answers = [] := ⟨by decide +kernel, rfl, rfl⟩

/-- A block after reset has the invariant when its configuration is well-formed and its table canonical. -/
theorem resetWith_inv {c : Config} (hc : c.wf = true) (ht : c.table.wf) (answers : List DrvAnswer)
    (rs : List Issued) : State.Inv { block c answers with requests := rs } :=
  ⟨hc, ht, rfl, ⟨rfl, rfl, rfl⟩, fun _ hw => nomatch hw⟩

/-- A state with the invariant whose step is a SEND with a driver call: for `InvariantIsKept`,
`AtMostOneDriverCallPerStep`, `ConfigurationIsNeverWritten`. -/
theorem witness_invariant : (asked ⟨⟨.phase3, 0⟩, .command ['R', 'E', 'D'] none⟩).Inv ∧
    next? callsMade (step (asked ⟨⟨.phase3, 0⟩, .command ['R', 'E', 'D'] none⟩)) = some 1 ∧
    callsMade (asked ⟨⟨.phase3, 0⟩, .command ['R', 'E', 'D'] none⟩) = 0 ∧
    next? (·.cfg.pulseUnitUs) (exec (.lookupBase ['R', 'E', 'D']) (block cfgA [])) = some 700 :=
  ⟨resetWith_inv fixtures_wf.1 fixtures_canonical.1 [.done] _, by decide +kernel, by decide, by decide +kernel⟩

/-- A request of the caller that calls the driver: for `DriverIsReachedOnlyThroughSend`, whose two outcomes are an
answered call and, with no answer, a waveform in flight. -/
theorem witness_callers_only : (asked ⟨⟨.phase3, 0⟩, .command ['R', 'E', 'D'] none⟩).CallersOnly ∧
    next? (fun u => (u.driverCalls.length, u.inFlight.isSome))
      (step (asked ⟨⟨.phase3, 0⟩, .command ['R', 'E', 'D'] none⟩)) = some (1, false) ∧
    next? (fun u => (u.driverCalls.length, u.inFlight.isSome))
      (step { asked ⟨⟨.phase3, 0⟩, .command ['R', 'E', 'D'] none⟩ with answers := [] }) = some (0, true) :=
  ⟨⟨by decide, fun h => absurd rfl h⟩, by decide +kernel, by decide +kernel⟩

theorem witness_reset : cfgA.wf = true ∧ cfgA.table.wf ∧ (cfg f1 0 38000).legal = false ∧
    (cfg f1 700 0).legal = false ∧
    (cfg (Memory.ofEntries [(.special, ['r', 'e', 'd'], [1])]) 700 38000).legal = false := by decide +kernel

/-- A step that changes STATUS and returns an error: for `StatusIsWrittenAtTheEnd`, `ErrorsAreBeforeAnyPulse`. -/
theorem witness_status :
    (asked ⟨⟨.phase3, 0⟩, .command ['X'] none⟩).status = .ok ∧
    next? (fun u => (u.status, u.returned)) (step (asked ⟨⟨.phase3, 0⟩, .command ['X'] none⟩)) =
      some (.unknownEffect, [.sent (.err .unknownEffect)]) := by decide +kernel

/-- A SEND just accepted: not in IDLE, with the invariant, and its phase has a next state. -/
theorem witness_phases : (accept ['R', 'E', 'D'] none (block cfgA [])).phase ≠ .idle ∧
    (accept ['R', 'E', 'D'] none (block cfgA [])).Inv ∧
    next? (·.phase) (advance (accept ['R', 'E', 'D'] none (block cfgA []))) = some .encode :=
  ⟨by decide, ⟨fixtures_wf.1, fixtures_canonical.1, rfl, ⟨rfl, rfl, rfl⟩, fun _ hw => nomatch hw⟩, by decide +kernel⟩

/-- PROG1's six bits, and the boundary of one bit. -/
theorem witness_delay : 0 < 6 ∧ 0 < 1 ∧ owedDelay cfgA (.ok ()) 6 = some 17 := by decide +kernel

theorem witness_text : ['r', 'e', 'd'] ≠ [] ∧ ['f', 'a', 'd', 'e'] ≠ [] ∧ [' '] ≠ [] ∧
    (∀ c ∈ ['r', 'e', 'd'] ++ ['f', 'a', 'd', 'e'], isSpace asciiChars c = false) ∧
    (∀ c ∈ ([] : Name) ++ [' '] ++ [Char.ofNat 0x09], isSpace asciiChars c = true) := by
  have hw : (['r', 'e', 'd'] ++ ['f', 'a', 'd', 'e']).all (fun c => !isSpace asciiChars c) = true := by decide
  have hs : (([] : Name) ++ [' '] ++ [Char.ofNat 0x09]).all (fun c => isSpace asciiChars c) = true := by decide
  exact ⟨by decide, by decide, by decide, fun c hc => by simpa using List.all_eq_true.1 hw c hc,
    List.all_eq_true.1 hs⟩

end Sys2Proof.Tests
end

section
/-! PROOFS. A class row of SEND that runs is the SEND of its command (30_encoding.md R78, 41_command_composer.md R116 to
R121), so an instruction does one of three things: it answers, it is TRANSMIT, or it is a SEND. -/

namespace Sys2Proof.Machine

open Sys2Proof

/-- The hit signals under which the rows of the decode space K4 are selected (R78). -/
def classHits : Op → (hb hs tp ht : Bool) → Bool
  | .sendBase, hb, _, tp, _         => hb && !tp
  | .sendBaseTail, hb, _, tp, ht    => hb && tp && ht
  | .sendBadTail, hb, _, tp, ht     => hb && tp && !ht
  | .sendSpecial, hb, hs, tp, _     => !hb && hs && !tp
  | .sendSpecialTail, hb, hs, tp, _ => !hb && hs && tp
  | .sendUnknown, hb, hs, _, _      => !hb && !hs
  | _, _, _, _, _                   => false

/-- A class row is selected by the hits of its decode vector (R77, R78). -/
theorem classSelected_decodeVector (o : Op) (c : Config) (m : Name) (t : Option Name) :
    classSelected o (decodeVector c m t) =
      classHits o (hitBase c m) (hitSpecial c m) (tailPresent t) (hitTail c t) := by
  have hvec : ∀ hb hs tp ht : Bool, classSelected o (8 * hb.toNat + 4 * hs.toNat + 2 * tp.toNat + ht.toNat) =
      classHits o hb hs tp ht := by cases o <;> decide
  exact hvec _ _ _ _

section Compositions
variable {c : Config} {m t : Name} {tail : Option Name}

/-- SEND.BASE composes as COMPOSE does (R116). -/
theorem composeBase_of_selected (h : classSelected .sendBase (decodeVector c m none) = true) :
    composeBase c m = compose c m none := by
  obtain ⟨b, hb⟩ : ∃ b, lookup c .base m = some b := by
    simpa [classSelected_decodeVector, classHits, hitBase, tailPresent, Option.isSome_iff_exists] using h
  simp [composeBase, compose, entryBits, hb]

/-- SEND.BASE_TAIL composes as COMPOSE does (R117). -/
theorem composeBaseTail_of_selected (h : classSelected .sendBaseTail (decodeVector c m (some t)) = true) :
    composeBaseTail c m t = compose c m (some t) := by
  obtain ⟨⟨b, hb⟩, tb, htb⟩ : (∃ b, lookup c .base m = some b) ∧ ∃ tb, lookup c .tail t = some tb := by
    simpa [classSelected_decodeVector, classHits, hitBase, tailPresent, hitTail, Option.isSome_iff_exists] using h
  simp [composeBaseTail, compose, entryBits, hb, htb]

/-- SEND.BAD_TAIL composes as COMPOSE does (R118). -/
theorem composeBadTail_of_selected (h : classSelected .sendBadTail (decodeVector c m (some t)) = true) :
    composeBadTail = compose c m (some t) := by
  obtain ⟨⟨b, hb⟩, ht⟩ : (∃ b, lookup c .base m = some b) ∧ lookup c .tail t = none := by
    simpa [classSelected_decodeVector, classHits, hitBase, tailPresent, hitTail, Option.isSome_iff_exists] using h
  simp [composeBadTail, compose, hb, ht]

/-- SEND.SPECIAL composes as COMPOSE does (R119). -/
theorem composeSpecial_of_selected (h : classSelected .sendSpecial (decodeVector c m none) = true) :
    composeSpecial c m = compose c m none := by
  obtain ⟨hb, sp, hsp⟩ : lookup c .base m = none ∧ ∃ sp, lookup c .special m = some sp := by
    simpa [classSelected_decodeVector, classHits, hitBase, hitSpecial, tailPresent, Option.isSome_iff_exists] using h
  simp [composeSpecial, compose, entryBits, hb, hsp]

/-- SEND.SPECIAL_TAIL composes as COMPOSE does (R120). -/
theorem composeSpecialTail_of_selected (h : classSelected .sendSpecialTail (decodeVector c m (some t)) = true) :
    composeSpecialTail = compose c m (some t) := by
  obtain ⟨hb, sp, hsp⟩ : lookup c .base m = none ∧ ∃ sp, lookup c .special m = some sp := by
    simpa [classSelected_decodeVector, classHits, hitBase, hitSpecial, tailPresent, Option.isSome_iff_exists] using h
  simp [composeSpecialTail, compose, hb, hsp]

/-- SEND.UNKNOWN composes as COMPOSE does (R121). -/
theorem composeUnknown_of_selected (h : classSelected .sendUnknown (decodeVector c m tail) = true) :
    composeUnknown = compose c m tail := by
  obtain ⟨hb, hsp⟩ : lookup c .base m = none ∧ lookup c .special m = none := by
    simpa [classSelected_decodeVector, classHits, hitBase, hitSpecial] using h
  simp [composeUnknown, compose, hb, hsp]

end Compositions

/-- A class row whose composition is COMPOSE's does nothing that SEND does not do. -/
theorem execSend_of_sendClass {o : Op} {m : Name} {t : Option Name} {r : Result Bits} {s u : State}
    (hr : classSelected o (decodeVector s.cfg m t) = true → r = compose s.cfg m t)
    (h : sendClass o m t r s = .next u) : execSend m t s = .next u := by
  obtain ⟨hw, h⟩ := whenLegal_eq_next h
  obtain ⟨hready, h⟩ := whenReady_eq_next h
  split at h
  · next hsel =>
    rw [hr hsel] at h
    rw [execSend, whenLegal_of hw, whenReady_of hready, h]
  · exact absurd h (by simp)

/-- What an instruction that ran did, a class row of SEND being the SEND of its command. -/
inductive Ran (s u : State) : Prop where
  /-- LOOKUP, COMPOSE, ENCODE, SYNTHESIZE: the result goes to the caller. -/
  | answered (r : Response) (hu : u = respond r s)
  /-- TRANSMIT called alone. -/
  | played (w : Waveform) (hr : s.ready = true) (hp : play w s = .next u)
  /-- SEND and its classes. -/
  | sent (m : Name) (t : Option Name) (hs : execSend m t s = .next u)

theorem ran_of_answer {r : Response} {s u : State} (h : whenLegal s (.next (respond r s)) = .next u) : Ran s u :=
  .answered r (by simpa using (whenLegal_eq_next h).2.symm)

/-- Everything an instruction can do. -/
theorem exec_ran {i : Instr} {s u : State} (h : exec i s = .next u) : Ran s u := by
  cases i with
  | lookupBase n => exact ran_of_answer h
  | lookupTail n => exact ran_of_answer h
  | lookupSpecial n => exact ran_of_answer h
  | compose m t => exact ran_of_answer h
  | encode b => exact ran_of_answer h
  | synthesize rls =>
    obtain ⟨-, h⟩ := whenLegal_eq_next h
    split at h
    · exact absurd h (by simp)
    · exact .answered _ (by simpa using h.symm)
  | transmit ps l =>
    obtain ⟨-, h⟩ := whenLegal_eq_next h
    split at h
    · exact absurd h (by simp)
    · obtain ⟨hr, h⟩ := whenReady_eq_next h
      exact .played ⟨l, ps⟩ hr h
  | send m t => exact .sent m t h
  | sendBase m => exact .sent m none (execSend_of_sendClass composeBase_of_selected h)
  | sendBaseTail m t => exact .sent m (some t) (execSend_of_sendClass composeBaseTail_of_selected h)
  | sendBadTail m t => exact .sent m (some t) (execSend_of_sendClass composeBadTail_of_selected h)
  | sendSpecial m => exact .sent m none (execSend_of_sendClass composeSpecial_of_selected h)
  | sendSpecialTail m t => exact .sent m (some t) (execSend_of_sendClass composeSpecialTail_of_selected h)
  | sendUnknown m t => exact .sent m t (execSend_of_sendClass composeUnknown_of_selected h)

end Sys2Proof.Machine
end

section
/-! PROOFS. The next states a SEND can answer, in the words of the statements: ended without a driver call, played, or
waiting for the driver (44_transmit_and_send.md R165 to R170). -/

namespace Sys2Proof.Machine

open Sys2Proof

/-- What SEND(m, t) does from a state, as a relation to the next state. -/
inductive Sends (m : Name) (t : Option Name) (s : State) : State → Prop where
  /-- The composition fails (R166). -/
  | failed (e : Err) (hc : compose s.cfg m t = .err e) : Sends m t s (sendEnded m t e.status s)
  /-- The command is empty (R167). -/
  | empty (hc : compose s.cfg m t = .ok []) : Sends m t s (sendEnded m t .ok s)
  /-- The driver has not answered yet (R162). -/
  | waiting (b : Bits) (hc : compose s.cfg m t = .ok b) (hb : b ≠ []) (hl : s.lineHeld = true)
      (ha : s.answers = []) : Sends m t s (sendWaiting m t b s)
  /-- The driver has answered (R165). -/
  | played (b : Bits) (a : DrvAnswer) (rest : List DrvAnswer) (hc : compose s.cfg m t = .ok b) (hb : b ≠ [])
      (hl : s.lineHeld = true) (ha : s.answers = a :: rest) :
      Sends m t s (sendPlayed m t (synthesize s.cfg (rleEncode b)) a rest s)

section Outcomes
variable {m : Name} {t : Option Name} {s u : State}

theorem execSend_of (hw : s.cfg.wf = true) (hr : s.ready = true) :
    execSend m t s = sendBody m t (compose s.cfg m t) s := by
  rw [execSend, whenLegal_of hw, whenReady_of hr]

/-- The driver's answer ends the SEND whose waveform it plays. -/
theorem settle_synthesized (b : Bits) (a : DrvAnswer) (rest : List DrvAnswer) (hf : s.inFlight = none) :
    settle a (takeAnswer ⟨s.cfg.outputLine, synthesize s.cfg (rleEncode b)⟩ a rest
      { synthesized m t b s with inFlight := some ⟨s.cfg.outputLine, synthesize s.cfg (rleEncode b)⟩ }) =
      sendPlayed m t (synthesize s.cfg (rleEncode b)) a rest s := by
  rw [settle_transmit rfl]
  simp [finish, takeAnswer, synthesized, accept, sendPlayed, sendEnded, hf]

/-- A SEND on a ready block does what `Sends` says. -/
theorem Sends.execSend_eq (hw : s.cfg.wf = true) (hr : s.ready = true) (h : Sends m t s u) :
    execSend m t s = .next u := by
  obtain ⟨-, hf⟩ := ready_iff.1 hr
  rw [execSend_of hw hr]
  cases h with
  | failed e hc => rw [hc, sendBody_err e hf]; rfl
  | empty hc => rw [hc, sendBody_empty hf]; rfl
  | waiting b hc hb hl ha =>
    rw [hc, sendBody_play hw hb hf, play_wait (s := synthesized m t b s) hl rfl hf ha]; rfl
  | played b a rest hc hb hl ha =>
    rw [hc, sendBody_play hw hb hf, play_answer (s := synthesized m t b s) hl rfl hf ha, settle_synthesized b a rest hf]

/-- Everything a SEND can do when it answers a next state. -/
theorem execSend_sends (h : execSend m t s = .next u) : s.cfg.wf = true ∧ s.ready = true ∧ Sends m t s u := by
  obtain ⟨hw, h⟩ := whenLegal_eq_next h
  obtain ⟨hr, h⟩ := whenReady_eq_next h
  obtain ⟨-, hf⟩ := ready_iff.1 hr
  refine ⟨hw, hr, ?_⟩
  obtain ⟨e, hc, rfl⟩ | ⟨hc, rfl⟩ | ⟨b, hc, hb, hp⟩ := sendBody_cases hw hf h
  · exact .failed e hc
  · exact .empty hc
  · obtain ⟨hl, -, -, ⟨ha, rfl⟩ | ⟨a, rest, ha, rfl⟩⟩ := play_eq_next hp
    · exact .waiting b hc hb hl ha
    · rw [settle_synthesized b a rest hf]
      exact .played b a rest hc hb hl ha

end Outcomes

end Sys2Proof.Machine
end

section
/-! PROOFS. What no operation of the block writes: the configuration, and the list of requests, which only the fetch of
a step shortens. -/

namespace Sys2Proof.Machine

open Sys2Proof

/-- The fields that no instruction and no work of a phase writes (10_state.md R22). -/
structure SameFrame (s u : State) : Prop where
  cfg      : u.cfg = s.cfg
  requests : u.requests = s.requests

theorem settle_frame (a : DrvAnswer) (s : State) : SameFrame s (settle a s) := by
  obtain ⟨-, h⟩ | ⟨-, h⟩ := settle_cases a s <;> rw [h] <;> exact ⟨rfl, rfl⟩

theorem play_frame {w : Waveform} {s u : State} (h : play w s = .next u) : SameFrame s u := by
  obtain ⟨-, -, -, ⟨-, rfl⟩ | ⟨a, rest, -, rfl⟩⟩ := play_eq_next h
  · exact ⟨rfl, rfl⟩
  · obtain ⟨hc, hq⟩ := settle_frame a (takeAnswer w a rest { s with inFlight := some w })
    exact ⟨hc, hq⟩

theorem composeStage_frame (s : State) : SameFrame s (composeStage s) := by
  obtain ⟨e, h⟩ | ⟨b, h⟩ := composeStage_cases s <;> rw [h] <;> exact ⟨rfl, rfl⟩

theorem synthStage_frame (s : State) : SameFrame s (synthStage s) := by
  obtain h | ⟨-, h⟩ := synthStage_cases s <;> rw [h] <;> exact ⟨rfl, rfl⟩

theorem advance_frame {s u : State} (h : advance s = .next u) : SameFrame s u := by
  obtain rfl | ⟨w, a, rest, -, -, rfl⟩ | ⟨-, ⟨-, rfl⟩ | ⟨-, rfl⟩ | ⟨-, rfl⟩ | ⟨-, hp⟩⟩ := advance_cases h
  · exact ⟨rfl, rfl⟩
  · obtain ⟨hc, hq⟩ := settle_frame a (takeAnswer w a rest s)
    exact ⟨hc, hq⟩
  · exact composeStage_frame s
  · exact ⟨rfl, rfl⟩
  · exact synthStage_frame s
  · exact play_frame hp

theorem Sends.frame {m : Name} {t : Option Name} {s u : State} (h : Sends m t s u) : SameFrame s u := by
  cases h <;> exact ⟨rfl, rfl⟩

theorem exec_frame {i : Instr} {s u : State} (h : exec i s = .next u) : SameFrame s u := by
  cases exec_ran h with
  | answered r hu => subst hu; exact ⟨rfl, rfl⟩
  | played w hr hp => exact play_frame hp
  | sent m t hs => exact (execSend_sends hs).2.2.frame

/-- No step writes the configuration (R22, R216). -/
theorem step_cfg {s u : State} (h : step s = .next u) : u.cfg = s.cfg := by
  obtain rfl | ⟨i, q, rest, -, -, -, he⟩ | ⟨-, -, ha⟩ := step_did h
  · rfl
  · exact (exec_frame he).cfg
  · exact (advance_frame ha).cfg

/-- Settles O48: the configuration is in the frame of every instruction and step, and the table is part of it. -/
theorem configurationIsNeverWritten : Obligations.ConfigurationIsNeverWritten :=
  ⟨fun _ _ _ h => ⟨(exec_frame h).cfg, fun _ _ => by rw [(exec_frame h).cfg]⟩,
    fun _ _ h => ⟨step_cfg h, fun _ _ => by rw [step_cfg h]⟩⟩

end Sys2Proof.Machine
end

section
/-! PROOFS. The reset state has the invariant (10_state.md R41), and every operation keeps it. -/

namespace Sys2Proof.Machine

open Sys2Proof

/-! ### What the invariant asks of the registers in each phase -/

section Registers
variable {s : State}

theorem registersFit_idle (hp : s.phase = .idle) : s.registersFit ↔ s.cmd = [] ∧ s.rl = [] ∧ s.pulses = [] := by
  simp [State.registersFit, hp]

theorem registersFit_compose (hp : s.phase = .compose) :
    s.registersFit ↔ s.cmd = [] ∧ s.rl = [] ∧ s.pulses = [] := by
  simp [State.registersFit, hp]

theorem registersFit_encode (hp : s.phase = .encode) :
    s.registersFit ↔ compose s.cfg s.main s.tail = .ok s.cmd ∧ s.rl = [] ∧ s.pulses = [] := by
  simp [State.registersFit, hp]

theorem registersFit_synth (hp : s.phase = .synth) :
    s.registersFit ↔ compose s.cfg s.main s.tail = .ok s.cmd ∧ s.rl = rleEncode s.cmd ∧ s.pulses = [] := by
  simp [State.registersFit, hp]

/-- With nothing in flight the waveform in flight fits. -/
theorem flightFits_none (hf : s.inFlight = none) : s.flightFits := by simp [State.flightFits, hf]

end Registers

/-! ### The reset state -/

theorem inv_resetWith {c : Config} (hw : c.wf = true) (ht : c.table.wf) : (State.resetWith c).Inv :=
  ⟨hw, ht, rfl, ⟨rfl, rfl, rfl⟩, flightFits_none rfl⟩

theorem wf_atReset : Config.atReset.wf = true := by decide

theorem construct_of {c : Config} (hw : c.wf = true) : State.construct c = .next (State.resetWith c) := if_pos hw

theorem construct_illFormed {c : Config} (hl : c.legal = false) : State.construct c = .refused .illFormedConfig :=
  if_neg (by simp [Config.wf, hl])

/-- Settles O46: reset answers `State.resetWith`, whose registers are empty. -/
theorem resetState : Obligations.ResetState :=
  ⟨fun c hw => ⟨State.resetWith c, construct_of hw, rfl, rfl, rfl, rfl, rfl, rfl, rfl, rfl, inv_resetWith hw⟩,
    fun _ => construct_illFormed, construct_of wf_atReset, inv_resetWith wf_atReset (by decide)⟩

/-! ### Every operation keeps it -/

section Kept
variable {s u : State}

theorem State.Inv.respond (h : s.Inv) (r : Response) : (respond r s).Inv :=
  ⟨h.legal, h.canonical, h.held, h.registers, h.flight⟩

/-- The end of a SEND empties the registers, so what they held is no matter. -/
theorem State.Inv.finish (h : s.Inv) (hf : s.inFlight = none) (st : Status) : (finish st s).Inv :=
  ⟨h.legal, h.canonical, h.held, ⟨rfl, rfl, rfl⟩, flightFits_none hf⟩

theorem State.Inv.takeAnswer (h : s.Inv) (w : Waveform) (a : DrvAnswer) (rest : List DrvAnswer) :
    (takeAnswer w a rest s).Inv :=
  ⟨h.legal, h.canonical, h.held, h.registers, flightFits_none rfl⟩

theorem State.Inv.settle (h : s.Inv) (hf : s.inFlight = none) (a : DrvAnswer) : (settle a s).Inv := by
  obtain ⟨-, he⟩ | ⟨-, he⟩ := settle_cases a s <;> rw [he]
  · exact h.finish hf a.status
  · exact h.respond (.transmitted a.result)

/-- A waveform on OUTPUT_LINE goes in flight for TRANSMIT called alone, or for the SEND whose PULSES it is. -/
theorem State.Inv.inFlight (h : s.Inv) {w : Waveform} (hw : w.line = s.cfg.outputLine)
    (hp : s.phase = .idle ∨ (s.phase = .transmit ∧ w.pulses = s.pulses)) :
    State.Inv { s with inFlight := some w } := by
  refine ⟨h.legal, h.canonical, h.held, h.registers, fun w' hw' => ?_⟩
  obtain rfl : w = w' := Option.some.inj hw'
  exact ⟨hw, hp⟩

theorem State.Inv.play (h : s.Inv) {w : Waveform}
    (hp : s.phase = .idle ∨ (s.phase = .transmit ∧ w.pulses = s.pulses)) (hu : play w s = .next u) : u.Inv := by
  obtain ⟨-, hw, -, ⟨-, rfl⟩ | ⟨a, rest, -, rfl⟩⟩ := play_eq_next hu
  · exact h.inFlight hw hp
  · exact ((h.inFlight hw hp).takeAnswer w a rest).settle rfl a

/-- Phase COMPOSE leaves in CMD what COMPOSE gives for MAIN and TAIL. -/
theorem State.Inv.composeStage (h : s.Inv) (hf : s.inFlight = none) (hp : s.phase = .compose) :
    (composeStage s).Inv := by
  obtain ⟨-, hrl, hps⟩ := (registersFit_compose hp).1 h.registers
  cases hc : compose s.cfg s.main s.tail with
  | err e => rw [Machine.composeStage, hc]; exact h.finish hf e.status
  | ok b =>
    rw [Machine.composeStage, hc]
    exact ⟨h.legal, h.canonical, h.held, (registersFit_encode rfl).2 ⟨hc, hrl, hps⟩, flightFits_none hf⟩

theorem State.Inv.encodeStage (h : s.Inv) (hf : s.inFlight = none) (hp : s.phase = .encode) :
    (encodeStage s).Inv := by
  obtain ⟨hc, -, hps⟩ := (registersFit_encode hp).1 h.registers
  exact ⟨h.legal, h.canonical, h.held, (registersFit_synth rfl).2 ⟨hc, rfl, hps⟩, flightFits_none hf⟩

/-- Phase SYNTH reaches TRANSMIT with a waveform only, so with a command that is not empty. -/
theorem State.Inv.synthStage (h : s.Inv) (hf : s.inFlight = none) (hp : s.phase = .synth) :
    (synthStage s).Inv := by
  obtain ⟨hc, hrl, -⟩ := (registersFit_synth hp).1 h.registers
  obtain he | ⟨hne, he⟩ := synthStage_cases s <;> rw [he]
  · exact h.finish hf .ok
  · have hcmd : s.cmd ≠ [] := fun h0 => hne (by rw [hrl, h0]; rfl)
    exact ⟨h.legal, h.canonical, h.held, ⟨hc, hcmd, hrl, rfl⟩, flightFits_none hf⟩

theorem State.Inv.advance (h : s.Inv) (hu : advance s = .next u) : u.Inv := by
  obtain rfl | ⟨w, a, rest, -, -, rfl⟩ | ⟨hf, ⟨hp, rfl⟩ | ⟨hp, rfl⟩ | ⟨hp, rfl⟩ | ⟨hp, hu⟩⟩ := advance_cases hu
  · exact h
  · exact (h.takeAnswer w a rest).settle rfl a
  · exact h.composeStage hf hp
  · exact h.encodeStage hf hp
  · exact h.synthStage hf hp
  · exact h.play (.inr ⟨hp, rfl⟩) hu

/-- A SEND leaves the registers empty when it has ended, and its command's run lengths and waveform while it waits. -/
theorem State.Inv.sends (h : s.Inv) (hf : s.inFlight = none) {m : Name} {t : Option Name} (hs : Sends m t s u) :
    u.Inv := by
  cases hs with
  | failed e hc => exact ⟨h.legal, h.canonical, h.held, ⟨rfl, rfl, rfl⟩, flightFits_none hf⟩
  | empty hc => exact ⟨h.legal, h.canonical, h.held, ⟨rfl, rfl, rfl⟩, flightFits_none hf⟩
  | played b a rest hc hb hl ha => exact ⟨h.legal, h.canonical, h.held, ⟨rfl, rfl, rfl⟩, flightFits_none hf⟩
  | waiting b hc hb hl ha =>
    refine ⟨h.legal, h.canonical, h.held, ⟨hc, hb, rfl, rfl⟩, fun w hw => ?_⟩
    obtain rfl := Option.some.inj hw
    exact ⟨rfl, .inr ⟨rfl, rfl⟩⟩

theorem State.Inv.exec (h : s.Inv) {i : Instr} (hu : exec i s = .next u) : u.Inv := by
  cases exec_ran hu with
  | answered r hr => rw [hr]; exact h.respond r
  | played w hr hp => exact h.play (.inl (ready_iff.1 hr).1) hp
  | sent m t hs =>
    obtain ⟨-, hr, hs⟩ := execSend_sends hs
    exact h.sends (ready_iff.1 hr).2 hs

theorem State.Inv.takeRequest (h : s.Inv) (rest : List Issued) : State.Inv { s with requests := rest } :=
  ⟨h.legal, h.canonical, h.held, h.registers, h.flight⟩

theorem State.Inv.step (h : s.Inv) (hu : step s = .next u) : u.Inv := by
  obtain rfl | ⟨i, q, rest, -, -, -, he⟩ | ⟨-, -, ha⟩ := step_did hu
  · exact h
  · exact (h.takeRequest rest).exec he
  · exact h.advance ha

end Kept

/-- Settles O45: an instruction answers, plays or sends, a step runs one or advances a phase, and each keeps it. -/
theorem invariantIsKept : Obligations.InvariantIsKept := ⟨fun _ _ _ h => h.exec, fun _ _ h => h.step⟩

end Sys2Proof.Machine
end

section
/-! PROOFS. A SEND is the work of its four phases, and with no request a step is the work of one phase
(10_state.md R35, R40; 44_transmit_and_send.md R165, R168). -/

namespace Sys2Proof.Machine

open Sys2Proof

/-- A SEND on a ready block is the work of four phases from its acceptance (R165). -/
theorem sendBody_eq_advanceBy {m : Name} {t : Option Name} {s : State} (hf : s.inFlight = none) :
    sendBody m t (compose s.cfg m t) s = advanceBy 4 (accept m t s) := by
  rw [advanceBy_succ, advance_compose (s := accept m t s) hf rfl, andThen_next]
  rfl

/-- With no request a step is the work of the phase, in IDLE none. -/
theorem step_eq_advance {s : State} (hw : s.cfg.wf = true) (hq : s.requests = []) : step s = advance s := by
  by_cases hr : s.ready = true
  · obtain ⟨hp, hf⟩ := ready_iff.1 hr
    rw [step_wait hr hq, advance_idle hf hp]
  · exact step_busy hw (by simpa using hr)

/-- With no request any number of steps are as many phases. -/
theorem steps_eq_advanceBy (k : Nat) {s : State} (hw : s.cfg.wf = true) (hq : s.requests = []) :
    steps k s = advanceBy k s := by
  induction k generalizing s with
  | zero => rfl
  | succ k ih =>
    rw [steps, advanceBy_succ, step_eq_advance hw hq]
    cases ha : advance s with
    | next u =>
      obtain ⟨hcfg, hreq⟩ := advance_frame ha
      exact ih (hcfg ▸ hw) (hreq.trans hq)
    | fault f => exact nomatch f
    | refused r => rfl

/-- Settles O41: with no request the four steps are the four phases of the SEND. -/
theorem phaseByPhaseIsSend : Obligations.PhaseByPhaseIsSend := by
  intro s m t hw hp hf hq
  calc steps 4 (accept m t s) = advanceBy 4 (accept m t s) := steps_eq_advanceBy 4 hw hq
    _ = sendBody m t (compose s.cfg m t) s := (sendBody_eq_advanceBy hf).symm
    _ = exec (.send m t) s := (execSend_of hw (ready_iff.2 ⟨hp, hf⟩)).symm

/-- What two SENDs from `s` and `s'` that end in `u` and `u'` have in common: new results, driver calls, registers,
phase, waveform in flight, remaining answers, and STATUS once ended. -/
def SentAlike (s s' u u' : State) : Prop :=
  ∃ newResults newCalls,
    u.returned = s.returned ++ newResults ∧ u'.returned = s'.returned ++ newResults ∧
    u.driverCalls = s.driverCalls ++ newCalls ∧ u'.driverCalls = s'.driverCalls ++ newCalls ∧
    u'.main = u.main ∧ u'.tail = u.tail ∧ u'.cmd = u.cmd ∧ u'.rl = u.rl ∧ u'.pulses = u.pulses ∧
    u'.phase = u.phase ∧ u'.inFlight = u.inFlight ∧ u'.answers = u.answers ∧
    (u.phase = .idle → u'.status = u.status)

section Alike
variable {m : Name} {t : Option Name} {s s' u : State}

theorem sentAlike_ended (st : Status) (hf : s'.inFlight = s.inFlight) (ha : s'.answers = s.answers) :
    SentAlike s s' (sendEnded m t st s) (sendEnded m t st s') :=
  ⟨[.sent st.result], [], rfl, rfl, (List.append_nil _).symm, (List.append_nil _).symm, rfl, rfl, rfl, rfl, rfl, rfl,
    hf, ha, fun _ => rfl⟩

theorem sentAlike_played (ps : List Pulse) (a : DrvAnswer) (rest : List DrvAnswer) (hc : s'.cfg = s.cfg)
    (hf : s'.inFlight = s.inFlight) :
    SentAlike s s' (sendPlayed m t ps a rest s) (sendPlayed m t ps a rest s') :=
  ⟨[.sent a.status.result], [⟨⟨s.cfg.outputLine, ps⟩, a⟩], rfl, rfl, rfl, by rw [← hc]; rfl, rfl, rfl, rfl, rfl, rfl,
    rfl, hf, rfl, fun _ => rfl⟩

theorem sentAlike_waiting (b : Bits) (hc : s'.cfg = s.cfg) (ha : s'.answers = s.answers) :
    SentAlike s s' (sendWaiting m t b s) (sendWaiting m t b s') := by
  refine ⟨[], [], (List.append_nil _).symm, (List.append_nil _).symm, (List.append_nil _).symm,
    (List.append_nil _).symm, rfl, rfl, rfl, rfl, ?_, rfl, ?_, ha, fun h => nomatch h⟩ <;> simp [sendWaiting, hc]

/-- Two states that agree on the configuration, the driver handle and the answers send alike. -/
theorem Sends.alike (h : Sends m t s u) (hc : s'.cfg = s.cfg) (hl : s'.lineHeld = s.lineHeld)
    (ha : s'.answers = s.answers) (hf : s'.inFlight = s.inFlight) :
    ∃ u', Sends m t s' u' ∧ SentAlike s s' u u' := by
  cases h with
  | failed e h => exact ⟨_, .failed e (hc ▸ h), sentAlike_ended e.status hf ha⟩
  | empty h => exact ⟨_, .empty (hc ▸ h), sentAlike_ended .ok hf ha⟩
  | waiting b h hb hheld hnone =>
    exact ⟨_, .waiting b (hc ▸ h) hb (hl.trans hheld) (ha.trans hnone), sentAlike_waiting b hc ha⟩
  | played b a rest h hb hheld hans =>
    refine ⟨_, .played b a rest (hc ▸ h) hb (hl.trans hheld) (ha.trans hans), ?_⟩
    rw [hc]
    exact sentAlike_played _ a rest hc hf

end Alike

/-- Settles O42: by the outcomes of a SEND, which read nothing else of the state. -/
theorem sendForgetsThePast : Obligations.SendForgetsThePast := by
  intro s s' u m t hr hr' hc hl ha h
  obtain ⟨hw, -, hs⟩ := execSend_sends h
  have hf : s'.inFlight = s.inFlight := (ready_iff.1 hr').2.trans (ready_iff.1 hr).2.symm
  obtain ⟨u', hs', newResults, newCalls, hcommon⟩ := hs.alike hc hl ha hf
  exact ⟨u', newResults, newCalls, hs'.execSend_eq (hc ▸ hw) hr', hcommon⟩

end Sys2Proof.Machine
end

section
/-! PROOFS. When STATUS is written and where PHASE goes (10_state.md R35, R36; 44_transmit_and_send.md R165). -/

namespace Sys2Proof.Machine

open Sys2Proof

/-- STATUS is as it was, or a SEND has ended with it and returned the result it says (R36). -/
def StatusAtEnd (s u : State) : Prop :=
  u.status = s.status ∨ (u.phase = .idle ∧ u.returned = s.returned ++ [.sent u.status.result])

section StatusAtEnd
variable {s u : State}

theorem settle_statusAtEnd (a : DrvAnswer) (s : State) : StatusAtEnd s (settle a s) := by
  obtain ⟨-, h⟩ | ⟨-, h⟩ := settle_cases a s <;> rw [h]
  · exact .inr ⟨rfl, rfl⟩
  · exact .inl rfl

theorem play_statusAtEnd {w : Waveform} (h : play w s = .next u) : StatusAtEnd s u := by
  obtain ⟨-, -, -, ⟨-, rfl⟩ | ⟨a, rest, -, rfl⟩⟩ := play_eq_next h
  · exact .inl rfl
  · exact settle_statusAtEnd a (takeAnswer w a rest { s with inFlight := some w })

theorem advance_statusAtEnd (h : advance s = .next u) : StatusAtEnd s u := by
  obtain rfl | ⟨w, a, rest, -, -, rfl⟩ | ⟨-, ⟨-, rfl⟩ | ⟨-, rfl⟩ | ⟨-, rfl⟩ | ⟨-, hp⟩⟩ := advance_cases h
  · exact .inl rfl
  · exact settle_statusAtEnd a (takeAnswer w a rest s)
  · obtain ⟨e, he⟩ | ⟨b, he⟩ := composeStage_cases s <;> rw [he]
    · exact .inr ⟨rfl, rfl⟩
    · exact .inl rfl
  · exact .inl rfl
  · obtain he | ⟨-, he⟩ := synthStage_cases s <;> rw [he]
    · exact .inr ⟨rfl, rfl⟩
    · exact .inl rfl
  · exact play_statusAtEnd hp

theorem Sends.statusAtEnd {m : Name} {t : Option Name} (h : Sends m t s u) : StatusAtEnd s u := by
  cases h with
  | failed e hc => exact .inr ⟨rfl, rfl⟩
  | empty hc => exact .inr ⟨rfl, rfl⟩
  | waiting b hc hb hl ha => exact .inl rfl
  | played b a rest hc hb hl ha => exact .inr ⟨rfl, rfl⟩

theorem exec_statusAtEnd {i : Instr} (h : exec i s = .next u) : StatusAtEnd s u := by
  cases exec_ran h with
  | answered r hu => subst hu; exact .inl rfl
  | played w hr hp => exact play_statusAtEnd hp
  | sent m t hs => exact (execSend_sends hs).2.2.statusAtEnd

theorem step_statusAtEnd (h : step s = .next u) : StatusAtEnd s u := by
  obtain rfl | ⟨i, q, rest, -, -, -, he⟩ | ⟨-, -, ha⟩ := step_did h
  · exact .inl rfl
  · exact (exec_statusAtEnd he : StatusAtEnd { s with requests := rest } u)
  · exact advance_statusAtEnd ha

end StatusAtEnd

/-- Settles O50: by what each operation does with STATUS. -/
theorem statusIsWrittenAtTheEnd : Obligations.StatusIsWrittenAtTheEnd :=
  fun _ _ h hne => (step_statusAtEnd h).resolve_left hne

/-- In PHASE = TRANSMIT the driver's answer ends the SEND. -/
theorem settle_phase_transmit {a : DrvAnswer} {s : State} (hp : s.phase = .transmit) :
    (settle a s).phase = .idle := by rw [settle_transmit hp]; rfl

theorem composeStage_phase (s : State) : (composeStage s).phase = .encode ∨ (composeStage s).phase = .idle := by
  obtain ⟨e, he⟩ | ⟨b, he⟩ := composeStage_cases s <;> rw [he]
  · exact .inr rfl
  · exact .inl rfl

theorem synthStage_phase (s : State) : (synthStage s).phase = .transmit ∨ (synthStage s).phase = .idle := by
  obtain he | ⟨-, he⟩ := synthStage_cases s <;> rw [he]
  · exact .inr rfl
  · exact .inl rfl

theorem driverStep_phase_transmit {s : State} {w : Waveform} (hf : s.inFlight = some w) (hp : s.phase = .transmit) :
    (driverStep s).phase = .idle ∨ ((driverStep s).phase = .transmit ∧ s.answers = []) := by
  cases ha : s.answers with
  | nil => rw [driverStep_silent ha]; exact .inr ⟨hp, rfl⟩
  | cons a rest => rw [driverStep_answer hf ha]; exact .inl (settle_phase_transmit hp)

theorem play_phase_transmit {s u : State} {w : Waveform} (hp : s.phase = .transmit) (h : play w s = .next u) :
    u.phase = .idle ∨ (u.phase = .transmit ∧ s.answers = []) := by
  obtain ⟨-, -, -, ⟨ha, rfl⟩ | ⟨a, rest, -, rfl⟩⟩ := play_eq_next h
  · exact .inr ⟨hp, ha⟩
  · exact .inl (settle_phase_transmit hp)

/-- The work of phase TRANSMIT ends the SEND, or waits while there is no answer (R162, R165). -/
theorem advance_phase_transmit {s u : State} (hp : s.phase = .transmit) (h : advance s = .next u) :
    u.phase = .idle ∨ (u.phase = .transmit ∧ s.answers = []) := by
  cases hf : s.inFlight with
  | some w =>
    obtain rfl : driverStep s = u := by simpa [advance_flight hf] using h
    exact driverStep_phase_transmit hf hp
  | none =>
    rw [advance_transmit hf hp] at h
    exact play_phase_transmit hp h

/-- Outside IDLE and TRANSMIT no waveform is in flight (R39). -/
theorem State.Inv.inFlight_none {s : State} (h : s.Inv) (hi : s.phase ≠ .idle) (ht : s.phase ≠ .transmit) :
    s.inFlight = none := by
  cases hf : s.inFlight with
  | none => rfl
  | some w =>
    obtain ⟨-, hp | ⟨hp, -⟩⟩ := h.flight w hf
    · exact absurd hp hi
    · exact absurd hp ht

/-- Settles O51: by the phase whose work is done. -/
theorem phaseMovesForward : Obligations.PhaseMovesForward := by
  intro s u hne hinv h
  cases hp : s.phase with
  | idle => exact absurd hp hne
  | compose =>
    have hf : s.inFlight = none := hinv.inFlight_none hne (by simp [hp])
    obtain rfl : composeStage s = u := by simpa [advance_compose hf hp] using h
    obtain hc | hc := composeStage_phase s
    · exact .inl (by rw [hc]; rfl)
    · exact .inr (.inl hc)
  | encode =>
    have hf : s.inFlight = none := hinv.inFlight_none hne (by simp [hp])
    obtain rfl : encodeStage s = u := by simpa [advance_encode hf hp] using h
    exact .inl rfl
  | synth =>
    have hf : s.inFlight = none := hinv.inFlight_none hne (by simp [hp])
    obtain rfl : synthStage s = u := by simpa [advance_synth hf hp] using h
    obtain hc | hc := synthStage_phase s
    · exact .inl (by rw [hc]; rfl)
    · exact .inr (.inl hc)
  | transmit =>
    obtain hi | ⟨ht, ha⟩ := advance_phase_transmit hp h
    · exact .inr (.inl hi)
    · exact .inr (.inr ⟨ht, rfl, ha⟩)

end Sys2Proof.Machine
end

section
/-! PROOFS. A ready block's step, and the two ways of waiting (10_state.md R35, R41; 44_transmit_and_send.md R164;
70_reset_and_hazards.md R225). -/

namespace Sys2Proof.Machine

open Sys2Proof

/-- The row TRANSMIT has one instruction for each list of pulses and line. -/
theorem op_eq_transmit {i : Instr} (h : i.op = .transmit) : ∃ ps l, i = .transmit ps l := by
  cases i with
  | transmit ps l => exact ⟨ps, l, rfl⟩
  | _ => exact nomatch h

/-- With a waveform in flight and no answer the work of the phase is to wait (R164). -/
theorem advance_silent {s : State} {w : Waveform} (hf : s.inFlight = some w) (ha : s.answers = []) :
    advance s = .next s := by rw [advance_flight hf, driverStep_silent ha]

/-- Settles O43: a request that decodes is received, but for the caller's TRANSMIT. -/
theorem stepRunsTheDecodedInstruction : Obligations.StepRunsTheDecodedInstruction := by
  intro s q rest i hp hf hq hd
  have hr : s.ready = true := ready_iff.2 ⟨hp, hf⟩
  refine ⟨fun hi => step_fetch hr hq (receive_of hd hi), fun hcaller hop => ?_⟩
  obtain ⟨ps, l, rfl⟩ := op_eq_transmit hop
  exact step_refuse hr hq (receive_transmit hd hcaller)

/-- Settles O44: a ready block with no request waits in `step_wait`, a block with a waveform in flight is busy and
waits for the driver. -/
theorem theBlockWaits : Obligations.TheBlockWaits := by
  refine ⟨fun s hp hf hq => step_wait (ready_iff.2 ⟨hp, hf⟩) hq, fun s w hw hf ha => ?_⟩
  have hbusy : s.ready = false := by simp [State.ready, hf]
  rw [step_busy hw hbusy, advance_silent hf ha]

end Sys2Proof.Machine
end

section
/-! PROOFS. The Effect Table: a load writes one address (20_memory.md R50, R56), and a table in canonical form is
determined by its reads (R51). -/

namespace Sys2Proof

/-! ### Loading one entry -/

theorem Memory.read_load_self (m : Memory) (cat : Cat) (key : Name) (bits : Bits) :
    (m.load cat key bits).read cat key = some bits := by
  rw [Memory.read, Memory.load, Memory.catalog_withCatalog_self, Catalog.find_insert_self]

/-- Another address is another catalog, or another key of the same one. -/
theorem Memory.read_load_other (m : Memory) {cat cat' : Cat} {key key' : Name} (bits : Bits)
    (h : cat' ≠ cat ∨ key' ≠ key) : (m.load cat key bits).read cat' key' = m.read cat' key' := by
  by_cases hc : cat' = cat
  · subst hc
    have hk : key' ≠ key := h.resolve_left (not_not_intro rfl)
    rw [Memory.read, Memory.load, Memory.catalog_withCatalog_self, Catalog.find_insert_other bits _ hk, Memory.read]
  · rw [Memory.read, Memory.load, Memory.catalog_withCatalog_other _ _ hc, Memory.read]

/-- Settles O9: by what an insertion leaves to be read in its own catalog, the other catalogs being untouched. -/
theorem loadedEntryIsReadBack : Obligations.LoadedEntryIsReadBack :=
  fun m cat _ key _ bits => ⟨m.read_load_self cat key bits, m.read_load_other bits⟩

/-! ### Canonical form -/

section Canonical
variable {k key : Name} {b : Bits} {rest : Catalog}

@[simp] theorem Catalog.find_nil : Catalog.find [] key = none := rfl

@[simp] theorem Catalog.find_cons_self : Catalog.find ((k, b) :: rest) k = some b := if_pos rfl

theorem Catalog.find_cons_other (h : k ≠ key) : Catalog.find ((k, b) :: rest) key = Catalog.find rest key := if_neg h

/-- The first key of a canonical catalog is its least. -/
theorem Catalog.head_le_of_find {bits : Bits} (h : Catalog.wf ((k, b) :: rest))
    (hf : Catalog.find ((k, b) :: rest) key = some bits) : k ≤ key := by
  rcases List.mem_cons.1 (Catalog.mem_of_find hf) with rfl | hm
  · exact le_rfl
  · exact ((List.pairwise_cons.1 h).1 key hm).le

/-- The first key of a canonical catalog does not occur again. -/
theorem Catalog.find_rest_head (h : Catalog.wf ((k, b) :: rest)) : Catalog.find rest k = none :=
  Catalog.find_of_not_mem fun hm => lt_irrefl k ((List.pairwise_cons.1 h).1 k hm)

end Canonical

/-- Canonical catalogs that read alike are equal: each one's first key is found in the other, so is not below the
other's first key, and what is read behind the common first entry is again alike. -/
theorem Catalog.ext_find {c c' : Catalog} (h : Catalog.wf c) (h' : Catalog.wf c')
    (hf : ∀ key, Catalog.find c key = Catalog.find c' key) : c = c' := by
  induction c generalizing c' with
  | nil =>
    cases c' with
    | nil => rfl
    | cons e' rest' =>
      obtain ⟨k', b'⟩ := e'
      exact absurd (hf k') (by simp)
  | cons e rest ih =>
    obtain ⟨k, b⟩ := e
    cases c' with
    | nil => exact absurd (hf k) (by simp)
    | cons e' rest' =>
      obtain ⟨k', b'⟩ := e'
      obtain rfl : k = k' := le_antisymm
        (Catalog.head_le_of_find h ((hf k').trans Catalog.find_cons_self))
        (Catalog.head_le_of_find h' ((hf k).symm.trans Catalog.find_cons_self))
      obtain rfl : b = b' := by simpa using hf k
      have hrest : ∀ key, Catalog.find rest key = Catalog.find rest' key := fun key => by
        by_cases hk : k = key
        · subst hk; rw [Catalog.find_rest_head h, Catalog.find_rest_head h']
        · simpa only [Catalog.find_cons_other hk] using hf key
      rw [ih (List.pairwise_cons.1 h).2 (List.pairwise_cons.1 h').2 hrest]

/-- Canonical tables that read alike are equal, catalog by catalog. -/
theorem Memory.ext_read {m m' : Memory} (h : m.wf) (h' : m'.wf)
    (hr : ∀ cat key, m.read cat key = m'.read cat key) : m = m' := by
  have hcat : ∀ cat, m.catalog cat = m'.catalog cat := fun cat =>
    Catalog.ext_find (m.wf_iff.1 h cat) (m'.wf_iff.1 h' cat) (hr cat)
  obtain ⟨base, tail, special⟩ := m
  obtain rfl : base = m'.base := hcat .base
  obtain rfl : tail = m'.tail := hcat .tail
  obtain rfl : special = m'.special := hcat .special
  rfl

/-- Settles O10: an insertion keeps the keys rising, and rising keys leave one list for each map. -/
theorem canonicalTablesAreTheirReads : Obligations.CanonicalTablesAreTheirReads :=
  ⟨fun _ cat key bits h => Memory.wf_load h cat key bits, fun _ _ => Memory.ext_read⟩

end Sys2Proof
end

section
/-! PROOFS. What one operation does at the driver boundary: nothing, one hand-over, one answer, or one whole call
(20_memory.md R57, R60; 44_transmit_and_send.md R160). -/

namespace Sys2Proof.Machine

open Sys2Proof

@[simp] theorem settle_inFlight (a : DrvAnswer) (s : State) : (settle a s).inFlight = s.inFlight := by
  obtain ⟨-, h⟩ | ⟨-, h⟩ := settle_cases a s <;> rw [h] <;> rfl

@[simp] theorem settle_driverCalls (a : DrvAnswer) (s : State) : (settle a s).driverCalls = s.driverCalls := by
  obtain ⟨-, h⟩ | ⟨-, h⟩ := settle_cases a s <;> rw [h] <;> rfl

theorem settle_returned_prefix (a : DrvAnswer) (s : State) : s.returned <+: (settle a s).returned := by
  obtain ⟨-, h⟩ | ⟨-, h⟩ := settle_cases a s <;> rw [h] <;> exact List.prefix_append _ _

/-- Everything that can happen at the driver boundary between two states. A waveform is handed over on OUTPUT_LINE
only, and only when none is in flight. -/
inductive Boundary (s u : State) : Prop where
  /-- The driver is not called and does not answer. -/
  | untouched (hf : u.inFlight = s.inFlight) (hc : u.driverCalls = s.driverCalls)
  /-- A waveform is handed over and waits for its answer (R162). -/
  | handedOver (w : Waveform) (hl : w.line = s.cfg.outputLine) (hn : s.inFlight = none)
      (hf : u.inFlight = some w) (hc : u.driverCalls = s.driverCalls)
  /-- The waveform in flight is answered (R161, R163). -/
  | answered (w : Waveform) (a : DrvAnswer) (hw : s.inFlight = some w)
      (hf : u.inFlight = none) (hc : u.driverCalls = s.driverCalls ++ [⟨w, a⟩])
  /-- A waveform is handed over and answered at once (R222). -/
  | played (w : Waveform) (a : DrvAnswer) (hl : w.line = s.cfg.outputLine) (hn : s.inFlight = none)
      (hf : u.inFlight = none) (hc : u.driverCalls = s.driverCalls ++ [⟨w, a⟩])

/-- What the two output ports of the block have seen grows: no result is taken back, and the driver boundary does one
of its four things. -/
structure PortsGrow (s u : State) : Prop where
  returned : s.returned <+: u.returned
  boundary : Boundary s u

section PortsGrow
variable {s u : State}

theorem PortsGrow.refl (s : State) : PortsGrow s s := ⟨List.prefix_rfl, .untouched rfl rfl⟩

theorem play_portsGrow {w : Waveform} (h : play w s = .next u) : PortsGrow s u := by
  obtain ⟨-, hl, hn, ⟨-, rfl⟩ | ⟨a, rest, -, rfl⟩⟩ := play_eq_next h
  · exact ⟨List.prefix_rfl, .handedOver w hl hn rfl rfl⟩
  · exact ⟨settle_returned_prefix a (takeAnswer w a rest { s with inFlight := some w }),
      .played w a hl hn (by simp) (by simp)⟩

theorem composeStage_portsGrow (s : State) : PortsGrow s (composeStage s) := by
  obtain ⟨e, h⟩ | ⟨b, h⟩ := composeStage_cases s <;> rw [h]
  · exact ⟨List.prefix_append _ _, .untouched rfl rfl⟩
  · exact ⟨List.prefix_rfl, .untouched rfl rfl⟩

theorem synthStage_portsGrow (s : State) : PortsGrow s (synthStage s) := by
  obtain h | ⟨-, h⟩ := synthStage_cases s <;> rw [h]
  · exact ⟨List.prefix_append _ _, .untouched rfl rfl⟩
  · exact ⟨List.prefix_rfl, .untouched rfl rfl⟩

theorem advance_portsGrow (h : advance s = .next u) : PortsGrow s u := by
  obtain rfl | ⟨w, a, rest, hw, -, rfl⟩ | ⟨-, ⟨-, rfl⟩ | ⟨-, rfl⟩ | ⟨-, rfl⟩ | ⟨-, hp⟩⟩ := advance_cases h
  · exact .refl u
  · exact ⟨settle_returned_prefix a (takeAnswer w a rest s), .answered w a hw (by simp) (by simp)⟩
  · exact composeStage_portsGrow s
  · exact ⟨List.prefix_rfl, .untouched rfl rfl⟩
  · exact synthStage_portsGrow s
  · exact play_portsGrow hp

theorem Sends.portsGrow (hn : s.inFlight = none) {m : Name} {t : Option Name} (h : Sends m t s u) :
    PortsGrow s u := by
  cases h with
  | failed e hc => exact ⟨List.prefix_append _ _, .untouched rfl rfl⟩
  | empty hc => exact ⟨List.prefix_append _ _, .untouched rfl rfl⟩
  | waiting b hc hb hl ha => exact ⟨List.prefix_rfl, .handedOver _ rfl hn rfl rfl⟩
  | played b a rest hc hb hl ha => exact ⟨List.prefix_append _ _, .played _ a rfl hn hn rfl⟩

theorem exec_portsGrow {i : Instr} (h : exec i s = .next u) : PortsGrow s u := by
  cases exec_ran h with
  | answered r hu => subst hu; exact ⟨List.prefix_append _ _, .untouched rfl rfl⟩
  | played w hr hp => exact play_portsGrow hp
  | sent m t hs =>
    obtain ⟨-, hr, hs⟩ := execSend_sends hs
    exact hs.portsGrow (ready_iff.1 hr).2

/-- Taking a request from the list does not touch the output ports. -/
theorem PortsGrow.of_takeRequest {rest : List Issued} (h : PortsGrow { s with requests := rest } u) :
    PortsGrow s u := by
  obtain ⟨hret, hb⟩ := h
  refine ⟨hret, ?_⟩
  cases hb with
  | untouched hf hc => exact .untouched hf hc
  | handedOver w hl hn hf hc => exact .handedOver w hl hn hf hc
  | answered w a hw hf hc => exact .answered w a hw hf hc
  | played w a hl hn hf hc => exact .played w a hl hn hf hc

theorem step_portsGrow (h : step s = .next u) : PortsGrow s u := by
  obtain rfl | ⟨i, q, rest, -, -, -, he⟩ | ⟨-, -, ha⟩ := step_did h
  · exact .refl u
  · exact (exec_portsGrow he).of_takeRequest
  · exact advance_portsGrow ha

/-! ### What a boundary event does to the calls -/

/-- Only a hand-over makes a call: an answer moves the call in flight to the answered ones. -/
theorem Boundary.callsMade_eq (h : Boundary s u) : callsMade u = callsMade s ∨ callsMade u = callsMade s + 1 := by
  cases h with
  | untouched hf hc => exact .inl (by simp [callsMade, hf, hc])
  | handedOver w hl hn hf hc => exact .inr (by simp [callsMade, hn, hf, hc])
  | answered w a hw hf hc => exact .inl (by simp [callsMade, hw, hf, hc])
  | played w a hl hn hf hc => exact .inr (by simp [callsMade, hn, hf, hc])

/-- The answered calls grow by at most one, and with what is in flight on OUTPUT_LINE the new one is there too. -/
theorem Boundary.driverCalls_eq (h : Boundary s u) (hs : s.flightFits) :
    u.driverCalls = s.driverCalls ∨
      ∃ c : DrvCall, c.wave.line = s.cfg.outputLine ∧ u.driverCalls = s.driverCalls ++ [c] := by
  cases h with
  | untouched hf hc => exact .inl hc
  | handedOver w hl hn hf hc => exact .inl hc
  | answered w a hw hf hc => exact .inr ⟨⟨w, a⟩, (hs w hw).1, hc⟩
  | played w a hl hn hf hc => exact .inr ⟨⟨w, a⟩, hl, hc⟩

end PortsGrow

/-- Settles O49: by what a step can do at the driver boundary, the invariant giving the line of a call in flight. -/
theorem atMostOneDriverCallPerStep : Obligations.AtMostOneDriverCallPerStep := by
  intro s u hs h
  obtain ⟨hret, hb⟩ := step_portsGrow h
  have hmade := hb.callsMade_eq
  refine ⟨by omega, by omega, hret, ?_⟩
  obtain hc | ⟨c, hl, hc⟩ := hb.driverCalls_eq hs.flight <;> rw [hc]
  · exact ⟨List.prefix_rfl, fun _ => .inl⟩
  · refine ⟨List.prefix_append _ _, fun c' hc' => (List.mem_append.1 hc').imp_right fun hm => ?_⟩
    rwa [List.mem_singleton.1 hm]

end Sys2Proof.Machine
end

section
/-! PROOFS. The decoder and the encoder agree (30_encoding.md R78, R80, R81), and which codes name no row (R79 to
R82). -/

namespace Sys2Proof

/-! ### Encoding, then decoding -/

/-- The code word of every instruction decodes to its operation. -/
theorem decodeOp_encodeWord (i : Instr) : decodeOp (encodeWord i) = .ok i.op := by
  cases i with
  | lookupBase n => exact Laws.Encodes.lookupBase n
  | lookupTail n => exact Laws.Encodes.lookupTail n
  | lookupSpecial n => exact Laws.Encodes.lookupSpecial n
  | send m t => exact Laws.Encodes.send m t
  | compose m t => exact Laws.Encodes.compose m t
  | encode b => exact Laws.Encodes.encode b
  | synthesize rls => exact Laws.Encodes.synthesize rls
  | transmit ps l => exact Laws.Encodes.transmit ps l
  | sendBase m => exact Laws.Encodes.sendBase m
  | sendBaseTail m t => exact Laws.Encodes.sendBaseTail m t
  | sendBadTail m t => exact Laws.Encodes.sendBadTail m t
  | sendSpecial m => exact Laws.Encodes.sendSpecial m
  | sendSpecialTail m t => exact Laws.Encodes.sendSpecialTail m t
  | sendUnknown m t => exact Laws.Encodes.sendUnknown m t

/-- The operands of every instruction attach to its operation, the bit TP of its code saying what the tail is. -/
theorem attach_encode (i : Instr) : attach i.op (encodeWord i).code (encodeOperands i) = .ok i := by
  obtain ⟨h0, h2, h4, h6, h8, hA, hB⟩ := tpBit_encoded
  cases i with
  | sendBase m => exact if_pos h8
  | sendBaseTail m t => exact if_pos hB
  | sendBadTail m t => exact if_pos hA
  | sendSpecial m => exact if_pos h4
  | sendSpecialTail m t => exact if_pos h6
  | sendUnknown m t =>
    cases t with
    | none => exact if_pos h0
    | some u => exact if_pos h2
  | _ => rfl

theorem checkTyped_of_wf {i : Instr} (h : i.wf = true) : checkTyped i = .ok i := by
  have hn : i.illTyped = none := Option.isNone_iff_eq_none.1 h
  simp [checkTyped, hn]

/-- The decoder on a code that selects a row whose operands attach. -/
theorem decode_of_attach {q : Request} {op : Op} {i : Instr} (hop : decodeOp q.word = .ok op)
    (ha : attach op q.word.code q.operands = .ok i) : decode q = checkTyped i := by
  simp [decode, hop, ha]

/-- Settles O3: the encoder's code selects the instruction's row, and its operands attach to that row again. -/
theorem decodeEncodeRoundTrip : Obligations.DecodeEncodeRoundTrip := by
  intro i hw
  rw [decode_of_attach (q := encode i) (decodeOp_encodeWord i) (attach_encode i), checkTyped_of_wf hw]

/-! ### Decoding, then encoding -/

/-- What a request that decodes has gone through: a row, its operands, their types. -/
theorem decode_ok {q : Request} {i : Instr} (h : decode q = .ok i) :
    ∃ op, decodeOp q.word = .ok op ∧ attach op q.word.code q.operands = .ok i ∧ i.wf = true := by
  unfold decode at h
  split at h
  · exact absurd h (by simp)
  · next op hop =>
    split at h
    · exact absurd h (by simp)
    · next j hj =>
      obtain ⟨rfl, hw⟩ := checkTyped_ok h
      exact ⟨op, hop, hj, hw⟩

theorem Row.space_of_selects {r : Row} {w : CodeWord} (h : r.selects w = true) : r.space = w.space := by
  simp only [Row.selects, Bool.and_eq_true, beq_iff_eq] at h
  exact h.1

/-- Two code words with one operation are selected by one row. -/
theorem row_of_decodeOp_eq {w w' : CodeWord} {op : Op} (h : decodeOp w = .ok op) (h' : decodeOp w' = .ok op) :
    ∃ r ∈ opcodeTable, r.op = op ∧ r.selects w = true ∧ r.selects w' = true := by
  obtain ⟨r, hr, hop, hsel⟩ := decodeOp_ok h
  obtain ⟨r', hr', hop', hsel'⟩ := decodeOp_ok h'
  obtain rfl : r' = r := opcodeTable_row_unique r hr r' hr' (hop'.trans hop.symm)
  exact ⟨r', hr, hop, hsel, hsel'⟩

/-- Settles O4: the request's code and the encoder's decode to one operation, so one row selects both. -/
theorem encodeDecodeRoundTrip : Obligations.EncodeDecodeRoundTrip := by
  intro q i h
  obtain ⟨op, hop, ha, hw⟩ := decode_ok h
  obtain ⟨rfl, hoperands⟩ := attach_ok ha
  obtain ⟨r, hr, hro, hsel, hsel'⟩ := row_of_decodeOp_eq hop (decodeOp_encodeWord i)
  have hspace : (encode i).word.space = q.word.space :=
    (Row.space_of_selects hsel').symm.trans (Row.space_of_selects hsel)
  exact ⟨hw, hoperands, hspace, r, hr, hro, hsel, hsel'⟩

/-! ### Which codes name a row -/

theorem decode_of_no_row {q : Request} {e : DecodeError} (h : decodeOp q.word = .error e) : decode q = .error e := by
  simp [decode, h]

theorem every_vector_selected : ∀ k < 16, ∃ r ∈ opcodeTable, r.space = .k4 ∧ r.selects ⟨.k4, k⟩ = true := by decide

theorem selector_three_unallocated : decodeOp ⟨.cat2, 3⟩ = .error .unallocated := by decide

theorem phase_codes_unallocated : ∀ p < 8, 5 ≤ p → decodeOp ⟨.phase3, p⟩ = .error .unallocated := by decide

/-- Settles O2: every vector selects a row, no two rows of one decode space overlap, and a code without a row decodes
to nothing. -/
theorem everyVectorSelectsOneRow : Obligations.EveryVectorSelectsOneRow := by
  refine ⟨fun k hk => ?_, fun o => decode_of_no_row selector_three_unallocated,
    fun p o h5 h8 => decode_of_no_row (phase_codes_unallocated p h8 h5)⟩
  obtain ⟨r, hr, hspace, hsel⟩ := every_vector_selected k hk
  have hunique := opcodeTable_no_overlap r hr
  rw [hspace] at hunique
  exact ⟨r, hr, hsel, fun r' hr' hsel' => hunique r' hr' k hk hsel hsel'⟩

/-- Settles O1: each word by its row, its operands and their types. -/
theorem sampleWordsDecode : Obligations.SampleWordsDecode := ⟨rfl, rfl, rfl, rfl, rfl, rfl, rfl⟩

/-- Settles O5: the code of each phase is the code word of its stage operation. -/
theorem phaseAndStatusCodes : Obligations.PhaseAndStatusCodes := by
  refine ⟨⟨rfl, rfl, rfl, rfl, rfl⟩, ?_, ⟨rfl, rfl, rfl, rfl, rfl⟩⟩
  exact ⟨decodeOp_encodeWord (.send [] none), decodeOp_encodeWord (.compose [] none), decodeOp_encodeWord (.encode []),
    decodeOp_encodeWord (.synthesize []), decodeOp_encodeWord (.transmit [] ⟨0⟩)⟩

end Sys2Proof
end

section
/-! PROOFS. The normalisation of names: what trimming takes and leaves, and that it is a projection (30_encoding.md
R73, R74). -/

namespace Sys2Proof

section Trim
variable (t : CharTable) (n : Name)

/-- Trimming is dropping the whitespace in front, then the whitespace behind. -/
theorem trim_eq_rdropWhile : trim t n = (n.dropWhile (isSpace t)).rdropWhile (isSpace t) := rfl

/-- A name is its trim between two runs of whitespace. -/
theorem eq_spaces_trim_spaces : ∃ pre post : Name, n = pre ++ trim t n ++ post ∧
    (∀ c ∈ pre, isSpace t c = true) ∧ ∀ c ∈ post, isSpace t c = true := by
  refine ⟨n.takeWhile (isSpace t), (n.dropWhile (isSpace t)).rtakeWhile (isSpace t), ?_,
    fun c hc => List.mem_takeWhile_imp hc, fun c hc => List.mem_rtakeWhile_imp hc⟩
  rw [trim_eq_rdropWhile, List.append_assoc, List.rdropWhile_append_rtakeWhile, List.takeWhile_append_dropWhile]

theorem isSpace_head_dropWhile {c : Char} (h : (n.dropWhile (isSpace t)).head? = some c) : isSpace t c = false := by
  have := List.head?_dropWhile_not (isSpace t) n
  rwa [h] at this

theorem isSpace_head_trim {c : Char} (h : (trim t n).head? = some c) : isSpace t c = false := by
  have htrim : (trim t n).dropWhile (isSpace t) = trim t n := dropWhile_reverse_dropWhile (dropWhile_idem n)
  rw [← htrim] at h
  exact isSpace_head_dropWhile t (trim t n) h

theorem isSpace_last_trim {c : Char} (h : (trim t n).getLast? = some c) : isSpace t c = false := by
  rw [trim, List.getLast?_reverse] at h
  exact isSpace_head_dropWhile t _ h

end Trim

/-- A normalised name is a key: trimming and upper-casing commute, and each is idempotent (R74). -/
theorem norm_norm {t : CharTable} (h : charLaws t = true) (n : Name) : norm t (norm t n) = norm t n := by
  have hupper : upper t ∘ upper t = upper t := funext fun c => (charLaws_all h c).1
  calc norm t (norm t n) = (trim t ((trim t n).map (upper t))).map (upper t) := rfl
    _ = ((trim t n).map (upper t)).map (upper t) := by rw [trim_map_upper h, trim_trim]
    _ = norm t n := by rw [List.map_map, hupper, norm]

/-- Settles O6: by what trimming takes off and leaves, and the two laws of the character functions. -/
theorem normalisationLaws : Obligations.NormalisationLaws := by
  intro t n h
  exact ⟨rfl, eq_spaces_trim_spaces t n, fun _ => isSpace_head_trim t n, fun _ => isSpace_last_trim t n,
    trim_map_upper h n, norm_norm h n⟩

end Sys2Proof
end

section
/-! PROOFS. The textual form of a command: how the tokenizer goes through whitespace and through a token
(30_encoding.md R90). -/

namespace Sys2Proof.Machine

open Sys2Proof

section Tokens
variable {t : CharTable} {cur ws w : Name}

/-- Whitespace before a token is skipped. -/
theorem tokensFrom_skip (hs : ∀ c ∈ ws, isSpace t c = true) (rest : Name) :
    tokensFrom t [] (ws ++ rest) = tokensFrom t [] rest := by
  induction ws with
  | nil => rfl
  | cons c cs ih =>
    obtain ⟨hc, hcs⟩ := List.forall_mem_cons.1 hs
    simp [tokensFrom, hc, ih hcs]

/-- A token is read to its end. -/
theorem tokensFrom_read (hw : ∀ c ∈ w, isSpace t c = false) (rest : Name) :
    tokensFrom t cur (w ++ rest) = tokensFrom t (w.reverse ++ cur) rest := by
  induction w generalizing cur with
  | nil => rfl
  | cons c cs ih =>
    obtain ⟨hc, hcs⟩ := List.forall_mem_cons.1 hw
    simp [tokensFrom, hc, ih hcs]

/-- Whitespace ends the token being read. -/
theorem tokensFrom_close (hcur : cur ≠ []) (hne : ws ≠ []) (hs : ∀ c ∈ ws, isSpace t c = true) (rest : Name) :
    tokensFrom t cur (ws ++ rest) = cur.reverse :: tokensFrom t [] rest := by
  cases ws with
  | nil => exact absurd rfl hne
  | cons c cs =>
    obtain ⟨hc, hcs⟩ := List.forall_mem_cons.1 hs
    simp [tokensFrom, hc, hcur, tokensFrom_skip hcs]

/-- So does the end of the text, whitespace before it or not. -/
theorem tokensFrom_last (hcur : cur ≠ []) (hs : ∀ c ∈ ws, isSpace t c = true) :
    tokensFrom t cur ws = [cur.reverse] := by
  by_cases hne : ws = []
  · simp [hne, tokensFrom, hcur]
  · simpa [tokensFrom] using tokensFrom_close hcur hne hs []

end Tokens

section Text
variable {t : CharTable} {m tc s1 s2 s3 : Name}

theorem tokens_one (hm : m ≠ []) (hmc : ∀ c ∈ m, isSpace t c = false) (hs1 : ∀ c ∈ s1, isSpace t c = true)
    (hs3 : ∀ c ∈ s3, isSpace t c = true) : tokensFrom t [] (s1 ++ (m ++ s3)) = [m] := by
  rw [tokensFrom_skip hs1, tokensFrom_read hmc, tokensFrom_last (by simpa using hm) hs3]
  simp

theorem tokens_two (hm : m ≠ []) (htc : tc ≠ []) (hne : s2 ≠ []) (hmc : ∀ c ∈ m, isSpace t c = false)
    (htcc : ∀ c ∈ tc, isSpace t c = false) (hs1 : ∀ c ∈ s1, isSpace t c = true)
    (hs2 : ∀ c ∈ s2, isSpace t c = true) (hs3 : ∀ c ∈ s3, isSpace t c = true) :
    tokensFrom t [] (s1 ++ (m ++ (s2 ++ (tc ++ s3)))) = [m, tc] := by
  rw [tokensFrom_skip hs1, tokensFrom_read hmc, tokensFrom_close (by simpa using hm) hne hs2]
  have hrest : tokensFrom t [] (tc ++ s3) = [tc] := tokens_one (s1 := []) htc htcc (by simp) hs3
  simp [hrest]

end Text

/-- Settles O54: the tokens of the two texts are the one name and the two names. -/
theorem textualCommandForm : Obligations.TextualCommandForm := by
  intro t m tc s1 s2 s3 hm htc hne hchars hspaces
  obtain ⟨hmc, htcc⟩ := List.forall_mem_append.1 hchars
  obtain ⟨hs12, hs3⟩ := List.forall_mem_append.1 hspaces
  obtain ⟨hs1, hs2⟩ := List.forall_mem_append.1 hs12
  have hone := tokens_one hm hmc hs1 hs3
  have htwo := tokens_two hm htc hne hmc htcc hs1 hs2 hs3
  simp [parseCommand, hone, htwo]

end Sys2Proof.Machine
end

section
/-! PROOFS. The decode vector selects one class row, by the row's mask and match, and that row is the SEND of its
command (30_encoding.md R76 to R79, 41_command_composer.md R116 to R121). -/

namespace Sys2Proof.Machine

open Sys2Proof

/-! ### One class for every vector -/

/-- The class that the hits of a command name (R78, R79). -/
def classOf (hb hs tp ht : Bool) : Op :=
  match hb, hs, tp, ht with
  | true, _, false, _     => .sendBase
  | true, _, true, true   => .sendBaseTail
  | true, _, true, false  => .sendBadTail
  | false, true, false, _ => .sendSpecial
  | false, true, true, _  => .sendSpecialTail
  | false, false, _, _    => .sendUnknown

theorem classHits_iff (o : Op) (hb hs tp ht : Bool) : classHits o hb hs tp ht = true ↔ o = classOf hb hs tp ht := by
  revert hb hs tp ht
  cases o <;> decide

/-- Exactly one row is selected by the decode vector of a command (R79). -/
theorem classSelected_iff (o : Op) (c : Config) (m : Name) (t : Option Name) :
    classSelected o (decodeVector c m t) = true ↔
      o = classOf (hitBase c m) (hitSpecial c m) (tailPresent t) (hitTail c t) := by
  rw [classSelected_decodeVector, classHits_iff]

/-! ### The operands of the selected class -/

/-- The classes without a tail have TP = 0 (R78). -/
theorem tp_false_of_classHits : ∀ o ∈ [Op.sendBase, .sendSpecial], ∀ hb hs tp ht,
    classHits o hb hs tp ht = true → tp = false := by decide

/-- The classes with a tail have TP = 1 (R78). -/
theorem tp_true_of_classHits : ∀ o ∈ [Op.sendBaseTail, .sendBadTail, .sendSpecialTail], ∀ hb hs tp ht,
    classHits o hb hs tp ht = true → tp = true := by decide

section Tail
variable {o : Op} {c : Config} {m : Name} {t : Option Name}

theorem tail_none_of_selected (ho : o ∈ [Op.sendBase, .sendSpecial])
    (h : classSelected o (decodeVector c m t) = true) : t = none := by
  rw [classSelected_decodeVector] at h
  simpa [tailPresent] using tp_false_of_classHits o ho _ _ _ _ h

theorem tail_some_of_selected (ho : o ∈ [Op.sendBaseTail, .sendBadTail, .sendSpecialTail])
    (h : classSelected o (decodeVector c m t) = true) : ∃ u, t = some u := by
  rw [classSelected_decodeVector] at h
  exact Option.isSome_iff_exists.1 (tp_true_of_classHits o ho _ _ _ _ h)

end Tail

/-- Settles O14: the hits name one class; its bit TP says what the tail is, and its composition is COMPOSE's. -/
theorem vectorDecidesTheComposition : Obligations.VectorDecidesTheComposition := by
  intro c m t
  refine ⟨⟨_, (classSelected_iff _ c m t).2 rfl, fun o' h => (classSelected_iff o' c m t).1 h⟩, fun h => ?_,
    fun h => ?_, fun h => ?_, fun h => ?_, fun h => ?_, fun h => (composeUnknown_of_selected h).symm⟩
  · obtain rfl := tail_none_of_selected (by decide) h
    exact ⟨rfl, (composeBase_of_selected h).symm⟩
  · obtain ⟨u, rfl⟩ := tail_some_of_selected (by decide) h
    exact ⟨u, rfl, (composeBaseTail_of_selected h).symm⟩
  · obtain ⟨u, rfl⟩ := tail_some_of_selected (by decide) h
    exact ⟨rfl, (composeBadTail_of_selected h).symm⟩
  · obtain rfl := tail_none_of_selected (by decide) h
    exact ⟨rfl, (composeSpecial_of_selected h).symm⟩
  · obtain ⟨u, rfl⟩ := tail_some_of_selected (by decide) h
    exact ⟨rfl, (composeSpecialTail_of_selected h).symm⟩

/-! ### A class row as an instruction -/

/-- A class row is selected by its mask and match (R78): the operation has no other row. -/
theorem classSelected_iff_mask {r : Row} (hr : r ∈ opcodeTable) (hspace : r.space = .k4) (k : Nat) :
    classSelected r.op k = true ↔ k &&& r.mask = r.value := by
  simp only [classSelected, List.any_eq_true, Bool.and_eq_true, decide_eq_true_eq]
  constructor
  · rintro ⟨r', hr', hop, hsel⟩
    obtain rfl := opcodeTable_row_unique r hr r' hr' hop
    simpa [Row.selects, hspace] using hsel
  · exact fun h => ⟨r, hr, rfl, by simp [Row.selects, hspace, h]⟩

/-- On a ready block a class row is SEND when its mask and match select the command's vector, else refused (R78). -/
theorem sendClass_eq {row : Row} {m : Name} {t : Option Name} {r : Result Bits} {s : State} (hw : s.cfg.wf = true)
    (hready : s.ready = true) (hrow : row ∈ opcodeTable) (hspace : row.space = .k4)
    (hr : classSelected row.op (decodeVector s.cfg m t) = true → r = compose s.cfg m t) :
    sendClass row.op m t r s =
      if decodeVector s.cfg m t &&& row.mask = row.value then execSend m t s else .refused .rowNotSelected := by
  rw [sendClass, whenLegal_of hw, whenReady_of hready]
  by_cases hsel : classSelected row.op (decodeVector s.cfg m t) = true
  · rw [if_pos hsel, if_pos ((classSelected_iff_mask hrow hspace _).1 hsel), execSend_of hw hready, hr hsel]
  · rw [if_neg hsel, if_neg (mt (classSelected_iff_mask hrow hspace _).2 hsel)]

/-- Settles O40: each class row by its mask, its match and its composition. -/
theorem classRowsAreSendOrNothing : Obligations.ClassRowsAreSendOrNothing := by
  intro s m t tail hw hp hf
  have hready : s.ready = true := ready_iff.2 ⟨hp, hf⟩
  exact ⟨sendClass_eq (row := ⟨.k4, 0xA, 0x8, .sendBase⟩) hw hready (by decide) rfl composeBase_of_selected,
    sendClass_eq (row := ⟨.k4, 0xB, 0xB, .sendBaseTail⟩) hw hready (by decide) rfl composeBaseTail_of_selected,
    sendClass_eq (row := ⟨.k4, 0xB, 0xA, .sendBadTail⟩) hw hready (by decide) rfl composeBadTail_of_selected,
    sendClass_eq (row := ⟨.k4, 0xE, 0x4, .sendSpecial⟩) hw hready (by decide) rfl composeSpecial_of_selected,
    sendClass_eq (row := ⟨.k4, 0xE, 0x6, .sendSpecialTail⟩) hw hready (by decide) rfl composeSpecialTail_of_selected,
    sendClass_eq (row := ⟨.k4, 0xC, 0x0, .sendUnknown⟩) hw hready (by decide) rfl composeUnknown_of_selected⟩

end Sys2Proof.Machine
end

section
/-! PROOFS. COMPOSE on an empty tail, which is provided (30_encoding.md R72, 40_effect_table.md R106), and where
SYNTHESIZE, TRANSMIT and SEND stop (30_encoding.md R88, 20_memory.md R62, 43_carrier_synthesizer.md R141,
44_transmit_and_send.md R169). -/

namespace Sys2Proof.Machine

open Sys2Proof

/-! ### COMPOSE under a base hit -/

section ComposeTail
variable {c : Config} {m u : Name} {b : Bits}

theorem compose_tail_hit {tb : Bits} (hb : lookup c .base m = some b) (ht : lookup c .tail u = some tb) :
    compose c m (some u) = .ok (b ++ tb) := by simp [compose, hb, ht]

theorem compose_tail_miss (hb : lookup c .base m = some b) (ht : lookup c .tail u = none) :
    compose c m (some u) = .err .invalidTailCode := by simp [compose, hb, ht]

end ComposeTail

/-- COMPOSE called alone hands its result to the caller and writes nothing (R123). -/
theorem exec_compose_of {s : State} {m : Name} {t : Option Name} {r : Result Bits} (hw : s.cfg.wf = true)
    (hc : compose s.cfg m t = r) : exec (.compose m t) s = .next (respond (.composed r) s) := by
  rw [← hc]
  exact whenLegal_of hw

/-- The empty name is looked up as the empty key (R106). -/
theorem lookup_nil (c : Config) (cat : Cat) : lookup c cat [] = c.table.read cat [] := by rw [lookup, norm_nil]

/-- Settles O8: the empty tail is looked up as the empty key, which the tail catalog has or has not. -/
theorem emptyTailIsProvided : Obligations.EmptyTailIsProvided := by
  intro s m b hw hb
  refine ⟨fun ht => ?_, fun tb ht => ?_⟩ <;> rw [← lookup_nil] at ht
  · exact exec_compose_of hw (compose_tail_miss hb ht)
  · exact exec_compose_of hw (compose_tail_hit hb ht)

/-! ### Operands outside their types -/

theorem illTyped_synthesize {rls : List Nat} (h : 0 ∈ rls) :
    (Instr.synthesize rls).illTyped = some .zeroRunLength :=
  if_pos (List.any_eq_true.2 ⟨0, h, rfl⟩)

theorem illTyped_transmit {ps : List Pulse} (l : LineId) (h : ∃ p ∈ ps, p.dur < 0) :
    (Instr.transmit ps l).illTyped = some .negativeDuration :=
  if_pos (by simpa using h)

theorem typed_transmit {ps : List Pulse} (l : LineId) (h : ∀ p ∈ ps, 0 ≤ p.dur) :
    (Instr.transmit ps l).illTyped = none :=
  if_neg (by simpa using h)

section Stops
variable {s : State}

theorem exec_synthesize_illTyped {rls : List Nat} {why : IllTyped} (hw : s.cfg.wf = true)
    (h : (Instr.synthesize rls).illTyped = some why) : exec (.synthesize rls) s = .refused (.illTyped why) := by
  rw [exec, execSynthesize, whenLegal_of hw, h]

theorem exec_transmit_illTyped {ps : List Pulse} {l : LineId} {why : IllTyped} (hw : s.cfg.wf = true)
    (h : (Instr.transmit ps l).illTyped = some why) : exec (.transmit ps l) s = .refused (.illTyped why) := by
  rw [exec, execTransmit, whenLegal_of hw, h]

/-- TRANSMIT of durations that are not negative is one driver call on a ready block (R160). -/
theorem exec_transmit_of {ps : List Pulse} (l : LineId) (hw : s.cfg.wf = true) (hps : ∀ p ∈ ps, 0 ≤ p.dur) :
    exec (.transmit ps l) s = whenReady s (play ⟨l, ps⟩ s) := by
  rw [exec, execTransmit, whenLegal_of hw, typed_transmit l hps]

/-! ### No driver, or a busy block -/

/-- A driver call on another line, or with no driver held, is refused (R62, R214). -/
theorem play_refused {w : Waveform} (h : w.line ≠ s.cfg.outputLine ∨ s.lineHeld = false) :
    play w s = .refused .noDriverOnLine := by
  have hn : ¬(s.lineHeld = true ∧ w.line = s.cfg.outputLine ∧ s.inFlight = none) := by
    rintro ⟨hl, hline, -⟩
    obtain h | h := h
    · exact h hline
    · simp [hl] at h
  rw [play, handOver, if_neg hn, andThen_refused]

theorem not_ready_of_busy (h : s.phase ≠ .idle ∨ s.inFlight ≠ none) : s.ready = false := by
  rw [← Bool.not_eq_true, ready_iff, not_and_or]
  exact h

/-- A SEND with a command and no driver held is refused at the driver call (R62). -/
theorem execSend_refused {m : Name} {t : Option Name} {b : Bits} (hw : s.cfg.wf = true) (hready : s.ready = true)
    (hl : s.lineHeld = false) (hc : compose s.cfg m t = .ok b) (hb : b ≠ []) :
    execSend m t s = .refused .noDriverOnLine := by
  rw [execSend_of hw hready, hc, sendBody_play hw hb (ready_iff.1 hready).2]
  exact play_refused (s := synthesized m t b s) (.inr hl)

end Stops

/-- Settles O32: the operands' types, then the guard of a ready block, then the hand-over to the driver. -/
theorem whereOperationsStop : Obligations.WhereOperationsStop := by
  intro s hw
  refine ⟨fun rls h => exec_synthesize_illTyped hw (illTyped_synthesize h),
    fun ps l h => exec_transmit_illTyped hw (illTyped_transmit l h), fun ps l hps hp hf h => ?_,
    fun ps l hps h => ?_, fun m t b hp hf hl hc hb => execSend_refused hw (ready_iff.2 ⟨hp, hf⟩) hl hc hb⟩
  · rw [exec_transmit_of l hw hps, whenReady_of (ready_iff.2 ⟨hp, hf⟩), play_refused h]
  · rw [exec_transmit_of l hw hps, whenReady_not (not_ready_of_busy h)]

end Sys2Proof.Machine
end

section
/-! PROOFS. LOOKUP: each row reads its own catalog at the normalised name and hands the entry, or not found, to the
caller (40_effect_table.md R100, R102, R104). -/

namespace Sys2Proof.Machine

open Sys2Proof

/-- What LOOKUP of a name in one catalog does: only the result handed to the caller is new (R100, R102). -/
theorem lookupIn_of {s : State} (cat : Cat) (n : Name) (hw : s.cfg.wf = true) :
    lookupIn cat n s = .next (respond (.found (s.cfg.table.read cat (norm s.cfg.chars n))) s) := by
  rw [lookupIn, whenLegal_of hw, lookup]

/-- Settles O11: each row is the LOOKUP in its own catalog. -/
theorem lookupReturnsStoredEntry : Obligations.LookupReturnsStoredEntry := by
  intro s n hw
  exact ⟨lookupIn_of .base n hw, lookupIn_of .tail n hw, lookupIn_of .special n hw⟩

end Sys2Proof.Machine
end

section
/-! PROOFS. COMPOSE in every case of its chain (41_command_composer.md R110 to R115), and each class row of SEND as the
SEND of its command under the hits that select it (R116 to R121). -/

namespace Sys2Proof.Machine

open Sys2Proof

/-! ### Names are read through their normalisation -/

/-- A table read sees a name only through its normalisation (R100, R111). -/
theorem lookup_norm {c : Config} (hw : c.wf = true) (cat : Cat) (n : Name) :
    lookup c cat (norm c.chars n) = lookup c cat n := by
  rw [lookup, norm_norm (wf_charLaws hw), lookup]

/-- So does a composition, which reads its names by table reads alone. -/
theorem compose_norm {c : Config} (hw : c.wf = true) (m : Name) (t : Option Name) :
    compose c (norm c.chars m) (t.map (norm c.chars)) = compose c m t := by
  cases t with
  | none => simp [compose, lookup_norm hw]
  | some u => simp [compose, lookup_norm hw]

/-- Settles O7: a name and its normalisation have one normalisation, and reads see nothing else. -/
theorem namesMatterOnlyNormalised : Obligations.NamesMatterOnlyNormalised :=
  fun _ cat m t hw => ⟨(lookup_norm hw cat m).symm, (compose_norm hw m t).symm⟩

/-! ### The cases of the chain without a base entry, or without a tail -/

section Chain
variable {c : Config} {m u : Name} {t : Option Name} {b sp : Bits}

theorem compose_base (hb : lookup c .base m = some b) : compose c m none = .ok b := by simp [compose, hb]

theorem compose_special (hb : lookup c .base m = none) (hs : lookup c .special m = some sp) :
    compose c m none = .ok sp := by simp [compose, hb, hs]

theorem compose_special_tail (hb : lookup c .base m = none) (hs : lookup c .special m = some sp) :
    compose c m (some u) = .err .tailCodeNotSupported := by simp [compose, hb, hs]

theorem compose_unknown (hb : lookup c .base m = none) (hs : lookup c .special m = none) :
    compose c m t = .err .unknownEffect := by simp [compose, hb, hs]

end Chain

/-- Settles O12: COMPOSE called alone hands over the composition of each case of the chain. -/
theorem composeFollowsTheChain : Obligations.ComposeFollowsTheChain := by
  intro s m t hw
  refine ⟨fun b hb => ⟨?_, fun tb ht => ?_, fun ht => ?_⟩, fun hb => ⟨fun sp hs => ⟨?_, ?_⟩, fun hs => ⟨?_, ?_⟩⟩⟩
  · exact exec_compose_of hw (compose_base hb)
  · exact exec_compose_of hw (compose_tail_hit hb ht)
  · exact exec_compose_of hw (compose_tail_miss hb ht)
  · exact exec_compose_of hw (compose_special hb hs)
  · exact exec_compose_of hw (compose_special_tail hb hs)
  · exact exec_compose_of hw (compose_unknown hb hs)
  · exact exec_compose_of hw (compose_unknown hb hs)

/-- Settles O13: the command is the base bits with the tail bits appended. -/
theorem concatenationKeepsBothParts : Obligations.ConcatenationKeepsBothParts := by
  intro c m t b tb hb ht
  refine ⟨b ++ tb, compose_tail_hit hb ht, List.length_append, fun i hi => List.getElem?_append_left hi, fun j _ => ?_⟩
  rw [List.getElem?_append_right (Nat.le_add_right _ _), Nat.add_sub_cancel_left]

/-! ### A class row is the SEND of its command under the class's hits -/

section ClassRows
variable {s : State} {m t : Name} {tail : Option Name} {b tb sp : Bits}

/-- On a ready block a selected row with COMPOSE's composition is SEND. -/
theorem sendClass_eq_execSend {o : Op} {r : Result Bits} (hw : s.cfg.wf = true) (hready : s.ready = true)
    (hr : classSelected o (decodeVector s.cfg m tail) = true → r = compose s.cfg m tail)
    (ho : o = classOf (hitBase s.cfg m) (hitSpecial s.cfg m) (tailPresent tail) (hitTail s.cfg tail)) :
    sendClass o m tail r s = execSend m tail s := by
  have hsel := (classSelected_iff o s.cfg m tail).2 ho
  rw [sendClass, whenLegal_of hw, whenReady_of hready, if_pos hsel, execSend_of hw hready, hr hsel]

variable (hw : s.cfg.wf = true) (hready : s.ready = true)
include hw hready

theorem exec_sendBase_eq (hb : lookup s.cfg .base m = some b) : exec (.sendBase m) s = execSend m none s :=
  sendClass_eq_execSend hw hready composeBase_of_selected (by simp [classOf, hitBase, hb, tailPresent])

theorem exec_sendBaseTail_eq (hb : lookup s.cfg .base m = some b) (ht : lookup s.cfg .tail t = some tb) :
    exec (.sendBaseTail m t) s = execSend m (some t) s :=
  sendClass_eq_execSend hw hready composeBaseTail_of_selected
    (by simp [classOf, hitBase, hb, tailPresent, hitTail, ht])

theorem exec_sendBadTail_eq (hb : lookup s.cfg .base m = some b) (ht : lookup s.cfg .tail t = none) :
    exec (.sendBadTail m t) s = execSend m (some t) s :=
  sendClass_eq_execSend hw hready composeBadTail_of_selected
    (by simp [classOf, hitBase, hb, tailPresent, hitTail, ht])

theorem exec_sendSpecial_eq (hb : lookup s.cfg .base m = none) (hs : lookup s.cfg .special m = some sp) :
    exec (.sendSpecial m) s = execSend m none s :=
  sendClass_eq_execSend hw hready composeSpecial_of_selected
    (by simp [classOf, hitBase, hb, hitSpecial, hs, tailPresent])

theorem exec_sendSpecialTail_eq (hb : lookup s.cfg .base m = none) (hs : lookup s.cfg .special m = some sp) :
    exec (.sendSpecialTail m t) s = execSend m (some t) s :=
  sendClass_eq_execSend hw hready composeSpecialTail_of_selected
    (by simp [classOf, hitBase, hb, hitSpecial, hs, tailPresent])

theorem exec_sendUnknown_eq (hb : lookup s.cfg .base m = none) (hs : lookup s.cfg .special m = none) :
    exec (.sendUnknown m tail) s = execSend m tail s :=
  sendClass_eq_execSend hw hready composeUnknown_of_selected (by simp [classOf, hitBase, hb, hitSpecial, hs])

/-- With an answer at hand a SEND whose composition succeeds is played, or ends at once when there are no bits
(R165, R167). -/
theorem execSend_command {a : DrvAnswer} {rest : List DrvAnswer} (hl : s.lineHeld = true) (ha : s.answers = a :: rest)
    (hc : compose s.cfg m tail = .ok b) :
    execSend m tail s = .next (if b = [] then sendEnded m tail .ok s
      else sendPlayed m tail (synthesize s.cfg (rleEncode b)) a rest s) := by
  split
  · next hb => exact (Sends.empty (hb ▸ hc)).execSend_eq hw hready
  · next hb => exact (Sends.played b a rest hc hb hl ha).execSend_eq hw hready

end ClassRows

/-- Settles O38: each error class is a SEND whose composition fails with the class's error. -/
theorem errorClassesEndWithTheirError : Obligations.ErrorClassesEndWithTheirError := by
  intro s m t tail hw hp hf
  have hready : s.ready = true := ready_iff.2 ⟨hp, hf⟩
  refine ⟨fun b hb ht => ?_, fun sp hb hs => ?_, fun hb hs => ?_⟩
  · rw [exec_sendBadTail_eq hw hready hb ht]
    exact (Sends.failed _ (compose_tail_miss hb ht)).execSend_eq hw hready
  · rw [exec_sendSpecialTail_eq hw hready hb hs]
    exact (Sends.failed _ (compose_special_tail hb hs)).execSend_eq hw hready
  · rw [exec_sendUnknown_eq hw hready hb hs]
    exact (Sends.failed _ (compose_unknown hb hs)).execSend_eq hw hready

/-- Settles O39: each command class is a SEND whose composition is the entries the class names. -/
theorem commandClassesArePlayed : Obligations.CommandClassesArePlayed := by
  intro s m t b tb a rest hw hp hf hl ha
  have hready : s.ready = true := ready_iff.2 ⟨hp, hf⟩
  refine ⟨fun hb => ?_, fun hb ht => ?_, fun hb hs => ?_⟩
  · rw [exec_sendBase_eq hw hready hb]
    exact execSend_command hw hready hl ha (compose_base hb)
  · rw [exec_sendBaseTail_eq hw hready hb ht]
    exact execSend_command hw hready hl ha (compose_tail_hit hb ht)
  · rw [exec_sendSpecial_eq hw hready hb hs]
    exact execSend_command hw hready hl ha (compose_special hb hs)

end Sys2Proof.Machine
end

section
/-! PROOFS. The run-length encoder: its left-to-right scan, the invariants of its counts, its expansion, and what it
does with a complement and with two parts (42_run_length_encoder.md R130 to R137). -/

namespace Sys2Proof.Machine

open Sys2Proof

/-! ### Induction along the runs -/

/-- The induction that follows R130: a bit put before a non-empty sequence repeats its first bit and lengthens its first
run, or differs from it and begins a run of its own. -/
theorem rle_induction {motive : Bits → Prop} (nil : motive []) (single : ∀ b, motive [b])
    (same : ∀ b bs n ns, rleEncode (b :: bs) = n :: ns → motive (b :: bs) → motive (b :: b :: bs))
    (differ : ∀ b c bs, b ≠ c → motive (c :: bs) → motive (b :: c :: bs)) (bits : Bits) : motive bits := by
  induction bits with
  | nil => exact nil
  | cons b bs ih =>
    cases bs with
    | nil => exact single b
    | cons c rest =>
      by_cases hbc : b = c
      · subst hbc
        obtain ⟨n, ns, hn⟩ := rleEncode_cons_exists b rest
        exact same b rest n ns hn ih
      · exact differ b c rest hbc ih

/-! ### The left-to-right scan -/

/-- In the middle of the scan: the counts behind the current run are kept, and the `k` bits of the current run before
its latest bit `p` are added to the run that `p` begins in the recursive definition. -/
theorem rleScan_some {p : Bit} {bs : Bits} {n : Nat} {ns : List Nat} (h : rleEncode (p :: bs) = n :: ns) (k : Nat)
    (out : List Nat) : rleScan (some p) ((k + 1) :: out) bs = out.reverse ++ (k + n) :: ns := by
  induction bs generalizing p k out n ns with
  | nil =>
    obtain ⟨rfl, rfl⟩ : 1 = n ∧ [] = ns := by simpa using h
    simp [rleScan]
  | cons b bs ih =>
    obtain ⟨m, ms, hm⟩ := rleEncode_cons_exists b bs
    by_cases hbp : b = p
    · subst hbp
      obtain ⟨rfl, rfl⟩ : m + 1 = n ∧ ms = ns := by simpa [rleEncode_same hm] using h
      rw [rleScan, if_pos rfl, ih hm, Nat.add_right_comm, Nat.add_assoc]
    · obtain ⟨rfl, rfl⟩ : 1 = n ∧ m :: ms = ns := by simpa [rleEncode_differ (Ne.symm hbp), hm] using h
      rw [rleScan, if_neg hbp, ih hm 0]
      simp

/-- The scan gives the counts of the recursive definition (R130). -/
theorem rleScan_eq_rleEncode (bits : Bits) : rleScan none [] bits = rleEncode bits := by
  cases bits with
  | nil => rfl
  | cons b bs =>
    obtain ⟨n, ns, hn⟩ := rleEncode_cons_exists b bs
    rw [rleScan, rleScan_some hn 0, hn]
    simp

theorem exec_encode_of {s : State} (bits : Bits) (hw : s.cfg.wf = true) :
    exec (.encode bits) s = .next (respond (.encoded (rleEncode bits)) s) := by
  rw [exec, execEncode, whenLegal_of hw]

/-- Settles O15: the scan carries the counts of the recursive definition, whose equations it therefore satisfies. -/
theorem encodeIsTheScan : Obligations.EncodeIsTheScan := by
  simp only [Obligations.EncodeIsTheScan, rleScan_eq_rleEncode]
  refine ⟨fun s bits hw => exec_encode_of bits hw, rleEncode_nil, rleEncode_single, fun b c rest n ns h => ?_⟩
  split
  · next hbc =>
    subst hbc
    exact rleEncode_same h
  · next hbc => rw [rleEncode_differ hbc, h]

/-! ### The invariants of the counts -/

/-- The counts share out the bits (R132). -/
theorem rleEncode_sum (bits : Bits) : (rleEncode bits).sum = bits.length := by
  induction bits using rle_induction with
  | nil => rfl
  | single b => rfl
  | same b bs n ns h ih =>
    rw [h, List.sum_cons] at ih
    rw [rleEncode_same h, List.sum_cons, List.length_cons, ← ih, Nat.add_right_comm]
  | differ b c bs hbc ih => simp [rleEncode_differ hbc, ih, Nat.add_comm]

/-- There are no more runs than bits: each takes one at least (R132). -/
theorem rleEncode_length_le (bits : Bits) : (rleEncode bits).length ≤ bits.length := by
  rw [← rleEncode_sum bits]
  exact List.length_le_sum_of_one_le _ (rleEncode_pos bits)

/-- Each bit is a run exactly when no two neighbours are equal (R132). -/
theorem rleEncode_length_eq_iff (bits : Bits) : (rleEncode bits).length = bits.length ↔ bits.IsChain (· ≠ ·) := by
  induction bits using rle_induction with
  | nil => simp
  | single b => simp
  | same b bs n ns h _ =>
    have hle := rleEncode_length_le (b :: bs)
    rw [h, List.length_cons] at hle
    have hlt : ns.length + 1 ≠ (b :: b :: bs).length := (Nat.lt_succ_of_le hle).ne
    simpa [rleEncode_same h] using hlt
  | differ b c bs hbc ih => simpa [rleEncode_differ hbc, hbc] using ih

/-- The places where neighbours differ (R132). -/
def changePlaces (bits : Bits) : List Nat :=
  (List.range (bits.length - 1)).filter (fun k => decide (bits[k]? ≠ bits[k + 1]?))

theorem changePlaces_cons_cons (b c : Bit) (bs : Bits) :
    changePlaces (b :: c :: bs) = (if b = c then [] else [0]) ++ (changePlaces (c :: bs)).map Nat.succ := by
  by_cases hbc : b = c <;>
    simp [changePlaces, List.range_succ_eq_map, List.filter_map, Function.comp_def, hbc]

/-- A run ends at each change and at the end (R132). -/
theorem rleEncode_length {bits : Bits} (hne : bits ≠ []) :
    (rleEncode bits).length = 1 + (changePlaces bits).length := by
  induction bits using rle_induction with
  | nil => exact absurd rfl hne
  | single b => rfl
  | same b bs n ns h ih =>
    have ih := ih (List.cons_ne_nil _ _)
    rw [h] at ih
    simpa [rleEncode_same h, changePlaces_cons_cons] using ih
  | differ b c bs hbc ih =>
    have ih := ih (List.cons_ne_nil _ _)
    simp [rleEncode_differ hbc, changePlaces_cons_cons, hbc, ih, Nat.add_comm]

/-- Settles O16: by induction along the runs, each clause a lemma of its own. -/
theorem runLengthInvariants : Obligations.RunLengthInvariants := fun bits =>
  ⟨rleEncode_pos bits, rleEncode_sum bits, rleEncode_length_le bits, rleEncode_length_eq_iff bits, rleEncode_length⟩

/-! ### Expansion -/

/-- Expanding the counts from the first bit gives the bits back (R136). -/
theorem rleExpand_rleEncode (b : Bit) (bs : Bits) : rleExpand b (rleEncode (b :: bs)) = b :: bs := by
  induction bs generalizing b with
  | nil => rfl
  | cons c rest ih =>
    by_cases hbc : b = c
    · subst hbc
      obtain ⟨n, ns, hn⟩ := rleEncode_cons_exists b rest
      have ih := ih b
      rw [hn, rleExpand] at ih
      rw [rleEncode_same hn, rleExpand, List.replicate_succ, List.cons_append, ih]
    · rw [rleEncode_differ hbc, rleExpand, ← bit_compl hbc, ih]
      rfl

/-- Settles O17: a run gives its bits back, and the next run is of the other value. -/
theorem expansionRestoresTheBits : Obligations.ExpansionRestoresTheBits := ⟨rleExpand_rleEncode, fun _ => rfl⟩

/-! ### The complement -/

/-- The counts say which neighbours are equal and nothing more: renaming the two values keeps them (R137). -/
theorem rleEncode_map {f : Bit → Bit} (hf : f.Injective) (bits : Bits) : rleEncode (bits.map f) = rleEncode bits := by
  induction bits using rle_induction with
  | nil => rfl
  | single b => rfl
  | same b bs n ns h ih => exact (rleEncode_same (ih.trans h)).trans (rleEncode_same h).symm
  | differ b c bs hbc ih =>
    rw [rleEncode_differ hbc, ← ih]
    exact rleEncode_differ (hf.ne hbc)

/-- Settles O18: complementing is injective on bits. -/
theorem complementHasTheSameWaveform : Obligations.ComplementHasTheSameWaveform := by
  intro c bits
  have h := rleEncode_map (f := fun b => 1 - b) (by decide) bits
  exact ⟨h, by rw [h]⟩

/-! ### Long runs, and runs across two parts -/

theorem rleEncode_replicate (b : Bit) (n : Nat) : rleEncode (List.replicate (n + 1) b) = [n + 1] := by
  induction n with
  | zero => rfl
  | succ n ih => exact rleEncode_same ih

theorem rleEncode_cons_of_head {a : Bit} {l : Bits} {n : Nat} {ns : List Nat} (ha : l.head? = some a)
    (h : rleEncode l = n :: ns) : rleEncode (a :: l) = (n + 1) :: ns := by
  obtain ⟨bs, rfl⟩ := List.head?_eq_some_iff.1 ha
  exact rleEncode_same h

theorem rleEncode_cons_of_head_ne {a : Bit} {l : Bits} (ha : l.head? ≠ some a) :
    rleEncode (a :: l) = 1 :: rleEncode l := by
  cases l with
  | nil => rfl
  | cons c bs => exact rleEncode_differ fun hac => ha (congrArg some hac.symm)

/-- What `xs` puts before the runs of a sequence that begins with `b` depends on `b` alone: counts `pre` of its own and
`m` bits added to the first run (R135). -/
theorem rleEncode_append_cons (xs : Bits) (b : Bit) : ∃ pre m, ∀ {ys k post},
    rleEncode (b :: ys) = k :: post → rleEncode (xs ++ b :: ys) = pre ++ (m + k) :: post := by
  induction xs with
  | nil => exact ⟨[], 0, fun h => by simpa using h⟩
  | cons a xs ih =>
    obtain ⟨pre, m, hpre⟩ := ih
    have hhead (ys : Bits) : (xs ++ b :: ys).head? = xs.head?.or (some b) := List.head?_append
    by_cases ha : xs.head?.or (some b) = some a
    · cases pre with
      | nil =>
        refine ⟨[], m + 1, fun h => ?_⟩
        rw [Nat.add_right_comm]
        exact rleEncode_cons_of_head ((hhead _).trans ha) (hpre h)
      | cons p pre => exact ⟨(p + 1) :: pre, m, fun h => rleEncode_cons_of_head ((hhead _).trans ha) (hpre h)⟩
    · refine ⟨1 :: pre, m, fun {ys _ _} h => ?_⟩
      rw [List.cons_append, rleEncode_cons_of_head_ne (hhead ys ▸ ha), hpre h, List.cons_append]

/-- Settles O19: the first part before its last bit puts the same before that bit alone as before that bit and the
second part. -/
theorem runsAreNeverSplit : Obligations.RunsAreNeverSplit := by
  refine ⟨fun b n hn => ?_, fun xs ys b => ?_⟩
  · obtain ⟨k, rfl⟩ := Nat.exists_eq_succ_of_ne_zero hn.ne'
    exact rleEncode_replicate b k
  · obtain ⟨pre, m, hpre⟩ := rleEncode_append_cons xs b
    obtain ⟨k, post, hk⟩ := rleEncode_cons_exists b ys
    refine ⟨pre, m + 1, k, post, hpre (rleEncode_single b), hk, ?_⟩
    rw [List.append_assoc, List.singleton_append, hpre (rleEncode_same hk), Nat.add_assoc, Nat.add_comm 1 k]

end Sys2Proof.Machine
end

section
/-! PROOFS. The carrier synthesizer: the cycles of a mark, what each run plays and how long it lasts, and the waveform
as the runs' pulses in index order (43_carrier_synthesizer.md R140 to R158). -/

namespace Sys2Proof.Machine

open Sys2Proof

/-! ### The cycle count and the remainder -/

theorem runUs_nonneg {c : Config} (h : c.wf = true) (n : Nat) : 0 ≤ runUs c n :=
  mul_nonneg n.cast_nonneg (wf_unit_pos h).le

/-- The cycle count is the only natural between the two bounds (R143). -/
theorem eq_cycleCount_iff {c : Config} (hp : 0 < periodUs c) {d : Rat} (hd : 0 ≤ d) (k : Nat) :
    k = cycleCount c d ↔ k * periodUs c ≤ d ∧ d < (k + 1) * periodUs c := by
  rw [cycleCount_eq_floor, eq_comm, Nat.floor_eq_iff (div_nonneg hd hp.le), le_div_iff₀ hp, div_lt_iff₀ hp]

theorem remainderUs_lt_periodUs {c : Config} (h : c.wf = true) (d : Rat) : remainderUs c d < periodUs c := by
  have hlt := lt_cycleCount_succ_mul h d
  rw [remainderUs]
  linarith

/-- A mark is its cycles, two halves each, and its remainder (R145). -/
theorem halves_add_remainderUs (c : Config) (d : Rat) : 2 * (cycleCount c d * halfUs c) + remainderUs c d = d := by
  rw [remainderUs, ← halfUs_add_halfUs]
  ring

theorem remainderUs_of_cycleCount_eq_zero {c : Config} {d : Rat} (h : cycleCount c d = 0) : remainderUs c d = d := by
  simp [remainderUs, h]

/-- Settles O21: the floor of d / PERIOD. -/
theorem cycleCountIsTheFloor : Obligations.CycleCountIsTheFloor := fun _ d hw hd =>
  ⟨eq_cycleCount_iff (periodUs_pos hw) hd, remainderUs_nonneg hw hd, remainderUs_lt_periodUs hw d⟩

/-! ### Durations of pulse lists -/

@[simp] theorem totalUs_nil : totalUs [] = 0 := rfl

@[simp] theorem totalUs_cons (p : Pulse) (ps : List Pulse) : totalUs (p :: ps) = p.dur + totalUs ps := List.sum_cons

@[simp] theorem totalUs_append (ps qs : List Pulse) : totalUs (ps ++ qs) = totalUs ps + totalUs qs := by
  simp [totalUs]

@[simp] theorem levelUs_nil (l : Level) : levelUs l [] = 0 := rfl

@[simp] theorem levelUs_cons (l : Level) (p : Pulse) (ps : List Pulse) :
    levelUs l (p :: ps) = (if p.level = l then p.dur else 0) + levelUs l ps := by
  by_cases hl : p.level = l <;> simp [levelUs, hl]

@[simp] theorem levelUs_append (l : Level) (ps qs : List Pulse) : levelUs l (ps ++ qs) =
    levelUs l ps + levelUs l qs := by
  simp [levelUs]

/-- Every pulse is on or off. -/
theorem totalUs_eq_levels (ps : List Pulse) : totalUs ps = levelUs .on ps + levelUs .off ps := by
  induction ps with
  | nil => simp
  | cons p ps ih => cases hl : p.level <;> simp [hl, ih] <;> ring

/-! ### The full cycles -/

theorem cyclePulses_eq_flatten (c : Config) (k : Nat) :
    cyclePulses c k = (List.replicate k [Pulse.mk .on (halfUs c), Pulse.mk .off (halfUs c)]).flatten := by
  induction k with
  | zero => rfl
  | succ k ih => rw [cyclePulses_succ, ih, List.replicate_succ]; rfl

@[simp] theorem levelUs_cyclePulses (c : Config) (l : Level) (k : Nat) :
    levelUs l (cyclePulses c k) = k * halfUs c := by
  induction k with
  | zero => simp
  | succ k ih => cases l <;> simp [cyclePulses_succ, ih] <;> ring

theorem dur_of_mem_cyclePulses {c : Config} {k : Nat} {p : Pulse} (h : p ∈ cyclePulses c k) : p.dur = halfUs c := by
  rw [cyclePulses_eq_flatten, List.mem_flatten] at h
  obtain ⟨cycle, hcycle, hp⟩ := h
  rw [List.eq_of_mem_replicate hcycle] at hp
  obtain rfl | rfl : p = ⟨.on, halfUs c⟩ ∨ p = ⟨.off, halfUs c⟩ := by simpa using hp
  all_goals rfl

theorem cyclePulses_head? (c : Config) {k : Nat} (hk : 0 < k) : (cyclePulses c k).head? = some ⟨.on, halfUs c⟩ := by
  obtain ⟨j, rfl⟩ := Nat.exists_eq_succ_of_ne_zero hk.ne'
  rfl

theorem cyclePulses_getLast? (c : Config) {k : Nat} (hk : 0 < k) :
    (cyclePulses c k).getLast? = some ⟨.off, halfUs c⟩ := by
  obtain ⟨j, rfl⟩ := Nat.exists_eq_succ_of_ne_zero hk.ne'
  simp [cyclePulses_eq_flatten, List.replicate_succ']

/-! ### Marks and spaces -/

/-- What ends a mark: its remainder, if there is one (R145). -/
def remainderPulses (r : Rat) : List Pulse := if 0 < r then [⟨.on, r⟩] else []

theorem markPulses_eq (c : Config) (n : Nat) :
    markPulses c n = cyclePulses c (cycleCount c (runUs c n)) ++ remainderPulses (remainderUs c (runUs c n)) := rfl

theorem remainderPulses_of_pos {r : Rat} (hr : 0 < r) : remainderPulses r = [⟨.on, r⟩] := if_pos hr

theorem remainderPulses_of_not_pos {r : Rat} (hr : ¬ 0 < r) : remainderPulses r = [] := if_neg hr

theorem levelUs_on_remainderPulses {r : Rat} (hr : 0 ≤ r) : levelUs .on (remainderPulses r) = r := by
  obtain rfl | hpos := hr.eq_or_lt
  · rfl
  · simp [remainderPulses_of_pos hpos]

theorem levelUs_off_remainderPulses (r : Rat) : levelUs .off (remainderPulses r) = 0 := by
  by_cases hr : 0 < r
  · simp [remainderPulses_of_pos hr]
  · simp [remainderPulses_of_not_pos hr]

theorem remainderPulses_length (r : Rat) : (remainderPulses r).length = if 0 < r then 1 else 0 :=
  apply_ite List.length _ _ _

/-- A mark whose duration is known in periods. -/
theorem markPulses_of_bounds {c : Config} (hp : 0 < periodUs c) {n k : Nat} (hlo : k * periodUs c ≤ runUs c n)
    (hhi : runUs c n < (k + 1) * periodUs c) :
    markPulses c n = cyclePulses c k ++ remainderPulses (runUs c n - k * periodUs c) := by
  have hd : 0 ≤ runUs c n := (mul_nonneg k.cast_nonneg hp.le).trans hlo
  rw [markPulses_eq, remainderUs, ← (eq_cycleCount_iff hp hd k).2 ⟨hlo, hhi⟩]

/-- A mark without a cycle is all remainder. -/
theorem remainderUs_pos_or_cycleCount_pos {c : Config} (h : c.wf = true) {n : Nat} (hn : 0 < n) :
    0 < remainderUs c (runUs c n) ∨ 0 < cycleCount c (runUs c n) := by
  obtain h0 | hk := Nat.eq_zero_or_pos (cycleCount c (runUs c n))
  · exact .inl ((remainderUs_of_cycleCount_eq_zero h0).symm ▸ runUs_pos h hn)
  · exact .inr hk

theorem levelUs_on_markPulses {c : Config} (h : c.wf = true) (n : Nat) :
    levelUs .on (markPulses c n) = cycleCount c (runUs c n) * halfUs c + remainderUs c (runUs c n) := by
  rw [markPulses_eq, levelUs_append, levelUs_cyclePulses,
    levelUs_on_remainderPulses (remainderUs_nonneg h (runUs_nonneg h n))]

theorem levelUs_off_markPulses (c : Config) (n : Nat) :
    levelUs .off (markPulses c n) = cycleCount c (runUs c n) * halfUs c := by
  rw [markPulses_eq, levelUs_append, levelUs_cyclePulses, levelUs_off_remainderPulses, add_zero]

theorem totalUs_markPulses {c : Config} (h : c.wf = true) (n : Nat) : totalUs (markPulses c n) = runUs c n := by
  rw [totalUs_eq_levels, levelUs_on_markPulses h, levelUs_off_markPulses]
  linarith [halves_add_remainderUs c (runUs c n)]

theorem totalUs_spacePulses (c : Config) (n : Nat) : totalUs (spacePulses c n) = runUs c n := by
  simp [spacePulses]

theorem dur_pos_of_mem_markPulses {c : Config} (h : c.wf = true) {n : Nat} {p : Pulse} (hp : p ∈ markPulses c n) :
    0 < p.dur := by
  rw [markPulses_eq, List.mem_append] at hp
  obtain hp | hp := hp
  · exact dur_of_mem_cyclePulses hp ▸ halfUs_pos h
  · by_cases hr : 0 < remainderUs c (runUs c n)
    · rw [remainderPulses_of_pos hr, List.mem_singleton] at hp
      exact hp ▸ hr
    · simp [remainderPulses_of_not_pos hr] at hp

theorem markPulses_length (c : Config) (n : Nat) : (markPulses c n).length =
    2 * cycleCount c (runUs c n) + (if 0 < remainderUs c (runUs c n) then 1 else 0) := by
  rw [markPulses_eq, List.length_append, cyclePulses_length, remainderPulses_length]

/-- A mark has no more pulses than half periods begun: a remainder is a part of one half period or of two (R152). -/
theorem markPulses_length_le {c : Config} (h : c.wf = true) (n : Nat) :
    (markPulses c n).length ≤ ⌈runUs c n / halfUs c⌉₊ := by
  have hhalf := halfUs_pos h
  have hsum := halves_add_remainderUs c (runUs c n)
  have hr := remainderUs_nonneg h (runUs_nonneg h n)
  rw [markPulses_length]
  split
  · next hpos =>
    rw [Nat.add_one_le_iff, Nat.lt_ceil, lt_div_iff₀ hhalf]
    push_cast
    linarith
  · rw [add_zero, ← Nat.cast_le (α := Rat)]
    refine le_trans ?_ (Nat.le_ceil _)
    rw [le_div_iff₀ hhalf]
    push_cast
    linarith

theorem markPulses_head? {c : Config} (h : c.wf = true) {n : Nat} (hn : 0 < n) : (markPulses c n).head? =
    some (if 0 < cycleCount c (runUs c n) then ⟨.on, halfUs c⟩ else ⟨.on, runUs c n⟩) := by
  rw [markPulses_eq, List.head?_append]
  split
  · next hk => rw [cyclePulses_head? c hk]; rfl
  · next hk =>
    have h0 : cycleCount c (runUs c n) = 0 := Nat.eq_zero_of_not_pos hk
    rw [remainderUs_of_cycleCount_eq_zero h0, h0, remainderPulses_of_pos (runUs_pos h hn)]
    rfl

theorem markPulses_getLast? {c : Config} (h : c.wf = true) {n : Nat} (hn : 0 < n) : (markPulses c n).getLast? =
    some (if 0 < remainderUs c (runUs c n) then ⟨.on, remainderUs c (runUs c n)⟩ else ⟨.off, halfUs c⟩) := by
  rw [markPulses_eq, List.getLast?_append]
  split
  · next hr => rw [remainderPulses_of_pos hr]; rfl
  · next hr =>
    have hk := (remainderUs_pos_or_cycleCount_pos h hn).resolve_left hr
    rw [remainderPulses_of_not_pos hr, cyclePulses_getLast? c hk]
    rfl

/-- Settles O25: the remainder is all on, each cycle half on. -/
theorem markOnTime : Obligations.MarkOnTime := by
  intro c n hw d
  have hr : 0 ≤ remainderUs c d := remainderUs_nonneg hw (runUs_nonneg hw n)
  have hk : 0 ≤ cycleCount c d * halfUs c := mul_nonneg (Nat.cast_nonneg _) (halfUs_pos hw).le
  have hsum := halves_add_remainderUs c d
  have hon := levelUs_on_markPulses hw n
  refine ⟨hon, levelUs_off_markPulses c n, ?_, ?_⟩ <;> rw [hon] <;> linarith

/-! ### The waveform, run by run -/

/-- The pulses of a run and its index: a mark at an even index, a space at an odd one (R140). -/
def runPulses (c : Config) (x : Nat × Nat) : List Pulse := if x.2 % 2 = 0 then markPulses c x.1 else spacePulses c x.1

theorem synthFrom_eq_flatMap (c : Config) (rls : List Nat) (i : Nat) :
    synthFrom c (decide (i % 2 = 0)) rls = (rls.zipIdx i).flatMap (runPulses c) := by
  induction rls generalizing i with
  | nil => simp
  | cons n ns ih =>
    rw [List.zipIdx_cons, List.flatMap_cons, ← ih (i + 1)]
    obtain hi | hi := Nat.mod_two_eq_zero_or_one i
    · have hi' : (i + 1) % 2 ≠ 0 := by omega
      simp [hi, hi', runPulses, synthFrom_mark]
    · have hi' : (i + 1) % 2 = 0 := by omega
      simp [hi, hi', runPulses, synthFrom_space]

theorem synthesize_eq_flatMap (c : Config) (rls : List Nat) : synthesize c rls = rls.zipIdx.flatMap (runPulses c) :=
  synthFrom_eq_flatMap c rls 0

theorem synthesize_append (c : Config) (xs ys : List Nat) :
    synthesize c (xs ++ ys) = synthesize c xs ++ (ys.zipIdx xs.length).flatMap (runPulses c) := by
  simp [synthesize_eq_flatMap, List.zipIdx_append]

theorem synthesize_single (c : Config) (n : Nat) : synthesize c [n] = markPulses c n := List.append_nil _

theorem runPulses_length (c : Config) (x : Nat × Nat) :
    (runPulses c x).length = if x.2 % 2 = 0 then (markPulses c x.1).length else 1 := apply_ite List.length _ _ _

theorem synthesize_length (c : Config) (rls : List Nat) : (synthesize c rls).length =
    (rls.zipIdx.map fun x => if x.2 % 2 = 0 then (markPulses c x.1).length else 1).sum := by
  simp only [synthesize_eq_flatMap, List.length_flatMap, runPulses_length]

theorem totalUs_synthFrom {c : Config} (h : c.wf = true) (b : Bool) (rls : List Nat) :
    totalUs (synthFrom c b rls) = rls.sum * c.pulseUnitUs := by
  induction rls generalizing b with
  | nil => simp
  | cons n ns ih =>
    have hsum : ((n :: ns).sum : Rat) * c.pulseUnitUs = runUs c n + ns.sum * c.pulseUnitUs := by simp [runUs, add_mul]
    cases b with
    | false => rw [synthFrom_space, totalUs_append, totalUs_spacePulses, ih, hsum]
    | true => rw [synthFrom_mark, totalUs_append, totalUs_markPulses h, ih, hsum]

theorem exec_synthesize_of {s : State} {rls : List Nat} (hw : s.cfg.wf = true) (hp : ∀ n ∈ rls, 0 < n) :
    exec (.synthesize rls) s = .next (respond (.synthesized (synthesize s.cfg rls)) s) := by
  have htyped : (Instr.synthesize rls).illTyped = none :=
    if_neg (by simpa using fun h0 : 0 ∈ rls => (hp 0 h0).ne rfl)
  rw [exec, execSynthesize, whenLegal_of hw, htyped]

/-- Settles O20: the alternation of marks and spaces is the parity of the index. -/
theorem synthesizeByRunIndex : Obligations.SynthesizeByRunIndex := by
  intro s rls hw hp
  rw [exec_synthesize_of hw hp, synthesize_eq_flatMap]
  have hrun : runPulses s.cfg = fun x => if x.2 % 2 = 0 then
      (List.replicate (cycleCount s.cfg (runUs s.cfg x.1))
        [Pulse.mk .on (halfUs s.cfg), Pulse.mk .off (halfUs s.cfg)]).flatten ++
        remainderPulses (remainderUs s.cfg (runUs s.cfg x.1))
      else spacePulses s.cfg x.1 := by
    funext x
    rw [runPulses, markPulses_eq, cyclePulses_eq_flatten]
  rw [hrun]
  rfl

/-- Settles O22: each run lasts its duration, and the runs' pulses follow each other. -/
theorem durationIsConserved : Obligations.DurationIsConserved := fun c hw =>
  ⟨fun n => ⟨totalUs_markPulses hw n, totalUs_spacePulses c n⟩, totalUs_synthFrom hw true,
    fun xs ys => ⟨_, synthesize_append c xs ys⟩⟩

/-- Settles O23: a pulse is a half period, a positive remainder, or a whole space. -/
theorem pulsesArePositive : Obligations.PulsesArePositive := by
  refine fun c hw => ⟨fun rls hpos p hp => ?_, fun n hn => synthesize_single c n ▸ markPulses_ne_nil hw hn⟩
  rw [synthesize_eq_flatMap, List.mem_flatMap] at hp
  obtain ⟨⟨n, i⟩, hx, hp⟩ := hp
  rw [runPulses] at hp
  split at hp
  · exact dur_pos_of_mem_markPulses hw hp
  · rw [List.mem_singleton.1 hp]
    exact runUs_pos hw (hpos n (List.fst_mem_of_mem_zipIdx hx))

/-- Settles O24: the counts of the runs' pulses, and the bound on a mark's. -/
theorem pulseCountFormula : Obligations.PulseCountFormula := by
  intro c rls hw
  rw [synthesize_length]
  refine ⟨by simp only [markPulses_length], List.sum_le_sum fun x _ => ?_⟩
  split
  · exact markPulses_length_le hw x.1
  · exact le_rfl

/-- Settles O26: no cycle below one period; no remainder of whole periods. -/
theorem shortAndWholeMarks : Obligations.ShortAndWholeMarks := by
  intro c n hw hn
  have hp := periodUs_pos hw
  refine ⟨fun hshort => ?_, fun k hk => ?_⟩
  · have hmark := markPulses_of_bounds (k := 0) hp (by simpa using runUs_nonneg hw n) (by simpa using hshort)
    rw [synthesize_single, hmark]
    simp [remainderPulses_of_pos (runUs_pos hw hn)]
  · have hmark := markPulses_of_bounds hp hk.ge (by linarith)
    rw [hk, sub_self, remainderPulses_of_not_pos (lt_irrefl 0), List.append_nil, cyclePulses_eq_flatten] at hmark
    refine ⟨by rw [synthesize_single, hmark], fun m => ?_⟩
    rw [← hmark]
    rfl

/-- Settles O27: the first run is a mark; the index of the last run says what it is. -/
theorem waveformEnds : Obligations.WaveformEnds := by
  intro c rls n hw hn
  constructor
  · rw [synthesize, synthFrom_mark, List.head?_append, markPulses_head? hw hn]
    rfl
  · have hlast : synthesize c (rls ++ [n]) = synthesize c rls ++ runPulses c (n, rls.length) := by
      simp [synthesize_append]
    rw [hlast, List.getLast?_append, runPulses]
    obtain heven | hodd := Nat.mod_two_eq_zero_or_one rls.length
    · simp [heven, markPulses_getLast? hw hn]
    · simp [hodd, spacePulses]

/-- Settles O28: the counts share out the bits, and are positive. -/
theorem waveformLastsTheBits : Obligations.WaveformLastsTheBits := by
  intro c bits hw
  refine ⟨?_, fun hnil => ?_, fun hbits => hbits ▸ rfl⟩
  · rw [synthesize, totalUs_synthFrom hw, rleEncode_sum]
  · by_contra hne
    exact synthesize_ne_nil hw (mt rleEncode_eq_nil.1 hne) (rleEncode_pos bits) hnil

/-- Settles O29: the period is 500/19, of which 2100 holds 79 and 700 holds 26. -/
theorem sourceScenario : Obligations.SourceScenario := by
  intro c hunit hcarrier
  have hperiod : periodUs c = 500 / 19 := by norm_num [periodUs, hcarrier]
  have hhalf : halfUs c = 250 / 19 := by norm_num [halfUs, hperiod]
  have hlong : markPulses c 3 = cyclePulses c 79 ++ [⟨.on, 400 / 19⟩] := by
    rw [markPulses_of_bounds (k := 79)] <;> norm_num [hperiod, runUs, hunit, remainderPulses]
  have hshort : markPulses c 1 = cyclePulses c 26 ++ [⟨.on, 300 / 19⟩] := by
    rw [markPulses_of_bounds (k := 26)] <;> norm_num [hperiod, runUs, hunit, remainderPulses]
  have hspace : spacePulses c 2 = [⟨.off, 1400⟩] := by norm_num [spacePulses, runUs, hunit]
  have hwave : synthesize c [3, 2, 1] = cyclePulses c 79 ++ [⟨.on, 400 / 19⟩] ++ [⟨.off, 1400⟩] ++
      cyclePulses c 26 ++ [⟨.on, 300 / 19⟩] := by
    simp [synthesize, synthFrom_mark, synthFrom_space, hlong, hspace, hshort]
  have hne : Level.on ≠ Level.off := by decide
  refine ⟨by decide, ?_, ?_, ?_, ?_⟩
  · rw [hwave, cyclePulses_eq_flatten, cyclePulses_eq_flatten, hhalf]
  · simp [hwave]
  · norm_num [hwave, hhalf, totalUs_eq_levels, hne, hne.symm]
  · norm_num [hwave, hhalf, hne.symm]

end Sys2Proof.Machine
end

section
/-! PROOFS. TRANSMIT called alone and SEND at the driver: what comes back with an answer and with none, how a SEND ends
without a driver call, and that a busy block takes no SEND (44_transmit_and_send.md R160 to R170). -/

namespace Sys2Proof.Machine

open Sys2Proof

/-! ### What an answer is to the caller -/

theorem DrvAnswer.result_eq (a : DrvAnswer) :
    a.result = if a = .done then .ok () else .err .transmissionFailure := by cases a <;> rfl

theorem DrvAnswer.status_eq (a : DrvAnswer) : a.status = if a = .done then .ok else .transmissionFailure := by
  cases a <;> rfl

/-- The line has seen the waveform of a new call when it was answered `done`, and nothing of it on `failed`
(R161, R163). -/
theorem lineSaw_of_driverCalls {s u : State} {l : LineId} {ps : List Pulse} {a : DrvAnswer}
    (h : u.driverCalls = s.driverCalls ++ [⟨⟨l, ps⟩, a⟩]) :
    u.lineSaw = s.lineSaw ++ if a = .done then [ps] else [] := by
  rw [State.lineSaw, h, List.filter_append, List.map_append]
  cases a <;> rfl

section Driver
variable {s : State} (hw : s.cfg.wf = true) (hp : s.phase = .idle) (hf : s.inFlight = none)

/-! ### A driver call is a step of the block with the waveform in flight -/

include hw hf in
/-- DrvPlay to its end is the step of the block that has handed its waveform over: the answer, or waiting (R162). -/
theorem play_eq_step {w : Waveform} (hl : s.lineHeld = true) (hline : w.line = s.cfg.outputLine) :
    play w s = step { s with inFlight := some w } := by
  have hbusy : State.ready { s with inFlight := some w } = false := not_ready_of_busy (.inr (by simp))
  rw [play, handOver_of hl hline hf, andThen_next, step_busy (s := { s with inFlight := some w }) hw hbusy,
    advance_flight rfl]

include hw hp hf

/-- TRANSMIT of a typed list on OUTPUT_LINE is one driver call (R160). -/
theorem exec_transmit_eq_play {ps : List Pulse} (hps : ∀ p ∈ ps, 0 ≤ p.dur) :
    exec (.transmit ps s.cfg.outputLine) s = play ⟨s.cfg.outputLine, ps⟩ s := by
  rw [exec_transmit_of _ hw hps, whenReady_of (ready_iff.2 ⟨hp, hf⟩)]

theorem exec_transmit_eq_step {ps : List Pulse} (hps : ∀ p ∈ ps, 0 ≤ p.dur) (hl : s.lineHeld = true) :
    exec (.transmit ps s.cfg.outputLine) s = step { s with inFlight := some ⟨s.cfg.outputLine, ps⟩ } :=
  (exec_transmit_eq_play hw hp hf hps).trans (play_eq_step hw hf hl rfl)

/-- A SEND with a command is the step of the block that waits with the command's waveform in flight (R165). -/
theorem exec_send_eq_step {m : Name} {t : Option Name} {b : Bits} (hl : s.lineHeld = true)
    (hc : compose s.cfg m t = .ok b) (hb : b ≠ []) : exec (.send m t) s = step (sendWaiting m t b s) := by
  calc execSend m t s
    _ = sendBody m t (.ok b) s := by rw [execSend_of hw (ready_iff.2 ⟨hp, hf⟩), hc]
    _ = play ⟨s.cfg.outputLine, synthesize s.cfg (rleEncode b)⟩ (synthesized m t b s) := sendBody_play hw hb hf
    _ = step (sendWaiting m t b s) := play_eq_step (s := synthesized m t b s) hw hf hl rfl

end Driver

/-! ### A busy block -/

theorem execSend_busy {s : State} (hw : s.cfg.wf = true) (hr : s.ready = false) (m : Name) (t : Option Name) :
    execSend m t s = .refused .busy := by rw [execSend, whenLegal_of hw, whenReady_not hr]

theorem sendClass_busy {s : State} (hw : s.cfg.wf = true) (hr : s.ready = false) (o : Op) (m : Name)
    (t : Option Name) (r : Result Bits) : sendClass o m t r s = .refused .busy := by
  rw [sendClass, whenLegal_of hw, whenReady_not hr]

/-! ### The obligations -/

/-- Settles O35: the SEND whose waveform is played, the answer giving its status. -/
theorem sendPlaysTheCommand : Obligations.SendPlaysTheCommand := by
  intro s m t b a rest hw hp hf hl ha hc hb
  exact ⟨(Sends.played b a rest hc hb hl ha).execSend_eq hw (ready_iff.2 ⟨hp, hf⟩), a.status_eq⟩

/-- Settles O36: the SEND is the step of the waiting state, which waits with no answer and ends with one. -/
theorem sendWaitsForTheDriver : Obligations.SendWaitsForTheDriver := by
  intro s m t b hw hp hf hl ha hc hb
  have hwaits : step (sendWaiting m t b s) = .next (sendWaiting m t b s) :=
    theBlockWaits.2 (sendWaiting m t b s) _ hw rfl ha
  refine ⟨(exec_send_eq_step hw hp hf hl hc hb).trans hwaits, hwaits, fun a rest => ?_⟩
  exact (exec_send_eq_step (s := { s with answers := a :: rest }) hw hp hf hl hc hb).symm

/-- Settles O30: the answer ends the call in IDLE, where it writes no STATUS and no register. -/
theorem transmitReturnsTheAnswer : Obligations.TransmitReturnsTheAnswer := by
  intro s ps a rest hw hp hf hl hps ha
  refine ⟨_, ?_, rfl, lineSaw_of_driverCalls rfl⟩
  rw [exec_transmit_eq_play hw hp hf hps, play_answer hl rfl hf ha, settle_alone, a.result_eq]
  · simp [respond, takeAnswer, hf]
  · simp [hp]

/-- Settles O31: TRANSMIT is the step of the waiting state, which waits with no answer and ends with one. -/
theorem transmitWaitsForTheDriver : Obligations.TransmitWaitsForTheDriver := by
  intro s ps hw hp hf hl hps ha waiting
  have hwaits : step waiting = .next waiting := theBlockWaits.2 waiting _ hw rfl ha
  refine ⟨(exec_transmit_eq_step hw hp hf hps hl).trans hwaits, hwaits, fun a rest => ?_⟩
  exact (exec_transmit_eq_step (s := { s with answers := a :: rest }) hw hp hf hps hl).symm

/-- Settles O33: the SEND whose composition fails. -/
theorem compositionErrorEndsSend : Obligations.CompositionErrorEndsSend :=
  fun _ _ _ e hw hp hf hc => (Sends.failed e hc).execSend_eq hw (ready_iff.2 ⟨hp, hf⟩)

/-- Settles O34: the SEND whose command is empty. -/
theorem emptyCommandIsNoOp : Obligations.EmptyCommandIsNoOp :=
  fun _ _ _ hw hp hf hc => (Sends.empty hc).execSend_eq hw (ready_iff.2 ⟨hp, hf⟩)

/-- Settles O37: SEND and the class rows, which are all `sendClass`, ask for a ready block. -/
theorem sendIsRefusedWhileBusy : Obligations.SendIsRefusedWhileBusy := by
  intro s m t tail hw hbusy
  have hr : s.ready = false := not_ready_of_busy hbusy
  have hclass := sendClass_busy hw hr
  rw [List.forall_mem_cons]
  refine ⟨execSend_busy hw hr m tail, fun i hi => ?_⟩
  simp only [List.mem_cons, List.not_mem_nil, or_false] at hi
  obtain rfl | rfl | rfl | rfl | rfl | rfl := hi <;> exact hclass _ _ _ _

end Sys2Proof.Machine
end

section
/-! PROOFS. How a SEND's result reaches the caller: with STATUS and PHASE at their end, and after an error with nothing
new on the line (60_exceptions.md R189, R190; 44_transmit_and_send.md R163). -/

namespace Sys2Proof.Machine

open Sys2Proof

/-- The result is an error exactly when the status is that error (R165, R190). -/
theorem Status.result_eq_err_iff {st : Status} {e : Err} : st.result = .err e ↔ st = e.status := by
  cases st <;> cases e <;> decide

/-- No SEND's result has been returned, or a SEND has ended with the one STATUS says, and unless that is OK the line
has seen nothing new (R189). -/
def SilentUnlessOk (s u : State) : Prop :=
  (∀ r, u.returned ≠ s.returned ++ [.sent r]) ∨
    (u.phase = .idle ∧ u.returned = s.returned ++ [.sent u.status.result] ∧ (u.status ≠ .ok → u.lineSaw = s.lineSaw))

section SilentUnlessOk
variable {s u : State}

theorem SilentUnlessOk.of_returned_eq (h : u.returned = s.returned) : SilentUnlessOk s u :=
  .inl fun r => by simp [h]

/-- LOOKUP, COMPOSE, ENCODE and SYNTHESIZE return no SEND's result. -/
theorem respond_silentUnlessOk {r : Response} (hr : r.isPure = true) (s : State) : SilentUnlessOk s (respond r s) := by
  have hne : ∀ x, r ≠ .sent x := by rintro x rfl; exact nomatch hr
  exact .inl fun x => by simp [hne x]

/-- A SEND that ends without a driver call (R166, R167). -/
theorem finish_silentUnlessOk (st : Status) (s : State) : SilentUnlessOk s (finish st s) :=
  .inr ⟨rfl, rfl, fun _ => rfl⟩

/-- The driver's answer: `failed` adds nothing to what the line has seen, and only `done` ends a SEND with OK (R163). -/
theorem settle_silentUnlessOk (w : Waveform) (a : DrvAnswer) (rest : List DrvAnswer) (s : State) :
    SilentUnlessOk s (settle a (takeAnswer w a rest s)) := by
  obtain ⟨-, h⟩ | ⟨-, h⟩ := settle_cases a (takeAnswer w a rest s) <;> rw [h]
  · refine .inr ⟨rfl, rfl, fun hne => ?_⟩
    cases a with
    | done => exact absurd rfl hne
    | failed => simpa using lineSaw_of_driverCalls (s := s) (finish_driverCalls _ (takeAnswer w .failed rest s))
  · exact .inl fun r => by simp

theorem play_silentUnlessOk {w : Waveform} (h : play w s = .next u) : SilentUnlessOk s u := by
  obtain ⟨-, -, -, ⟨-, rfl⟩ | ⟨a, rest, -, rfl⟩⟩ := play_eq_next h
  · exact .of_returned_eq rfl
  · exact settle_silentUnlessOk w a rest { s with inFlight := some w }

theorem sendBody_silentUnlessOk {m : Name} {t : Option Name} {r : Result Bits} (hw : s.cfg.wf = true)
    (hf : s.inFlight = none) (h : sendBody m t r s = .next u) : SilentUnlessOk s u := by
  obtain ⟨e, -, rfl⟩ | ⟨-, rfl⟩ | ⟨b, -, -, hp⟩ := sendBody_cases hw hf h
  · exact finish_silentUnlessOk e.status (accept m t s)
  · exact finish_silentUnlessOk .ok (accept m t s)
  · exact (play_silentUnlessOk hp : SilentUnlessOk (synthesized m t b s) u)

theorem advance_silentUnlessOk (h : advance s = .next u) : SilentUnlessOk s u := by
  obtain rfl | ⟨w, a, rest, -, -, rfl⟩ | ⟨-, ⟨-, rfl⟩ | ⟨-, rfl⟩ | ⟨-, rfl⟩ | ⟨-, hp⟩⟩ := advance_cases h
  · exact .of_returned_eq rfl
  · exact settle_silentUnlessOk w a rest s
  · obtain ⟨e, he⟩ | ⟨b, he⟩ := composeStage_cases s <;> rw [he]
    · exact finish_silentUnlessOk e.status s
    · exact .of_returned_eq rfl
  · exact .of_returned_eq rfl
  · obtain he | ⟨-, he⟩ := synthStage_cases s <;> rw [he]
    · exact finish_silentUnlessOk .ok s
    · exact .of_returned_eq rfl
  · exact play_silentUnlessOk hp

theorem exec_silentUnlessOk {i : Instr} (h : exec i s = .next u) : SilentUnlessOk s u := by
  obtain ⟨hw, hd⟩ := exec_did h
  cases hd with
  | answered r hr hu =>
    subst hu
    exact respond_silentUnlessOk hr s
  | played ps l hready hp => exact play_silentUnlessOk hp
  | sent m t r hready hb => exact sendBody_silentUnlessOk hw (ready_iff.1 hready).2 hb

theorem step_silentUnlessOk (h : step s = .next u) : SilentUnlessOk s u := by
  obtain rfl | ⟨i, q, rest, -, -, -, he⟩ | ⟨-, -, ha⟩ := step_did h
  · exact .of_returned_eq rfl
  · exact (exec_silentUnlessOk he : SilentUnlessOk { s with requests := rest } u)
  · exact advance_silentUnlessOk ha

end SilentUnlessOk

/-- Settles O52: a step that returns an error of a SEND has ended it with that error, which is not OK. -/
theorem errorsAreBeforeAnyPulse : Obligations.ErrorsAreBeforeAnyPulse := by
  intro s u e h hret
  obtain hnone | ⟨hp, hsent, hquiet⟩ := step_silentUnlessOk h
  · exact absurd hret (hnone _)
  · have hresult : u.status.result = .err e := by simpa [hsent] using hret
    have hstatus : u.status = e.status := Status.result_eq_err_iff.1 hresult
    have hne : u.status ≠ .ok := fun hok => by simp [hok, Status.result] at hresult
    exact ⟨hquiet hne, hstatus, hp⟩

end Sys2Proof.Machine
end

section
/-! PROOFS. In the spec's machine the driver is reached only through SEND (70_reset_and_hazards.md R225,
44_transmit_and_send.md R171, 60_exceptions.md R195). -/

namespace Sys2Proof.Machine

open Sys2Proof

/-! ### What is in flight in PHASE = TRANSMIT -/

section Waveform
variable {s : State}

theorem registersFit_transmit (hp : s.phase = .transmit) :
    s.registersFit ↔ compose s.cfg s.main s.tail = .ok s.cmd ∧ s.cmd ≠ [] ∧ s.rl = rleEncode s.cmd ∧
      s.pulses = synthesize s.cfg s.rl := by
  simp [State.registersFit, hp]

/-- In PHASE = TRANSMIT the waveform in flight is PULSES, and the registers tie PULSES to MAIN and TAIL. -/
theorem State.Inv.playsItsCommand (h : s.Inv) (hp : s.phase = .transmit) {w : Waveform} (hf : s.inFlight = some w) :
    s.PlaysItsCommand w := by
  obtain ⟨hc, hb, hrl, hps⟩ := (registersFit_transmit hp).1 h.registers
  obtain ⟨hl, hidle | ⟨-, hw⟩⟩ := h.flight w hf
  · exact absurd (hidle.symm.trans hp) (by decide)
  · exact ⟨s.cmd, hc, hb, by rw [← hrl, ← hps, ← hl, ← hw]⟩

end Waveform

/-! ### What a step does with the driver's calls -/

/-- What happens to the answered calls between two states when only SENDs reach the driver (R225). -/
inductive SendCall (s u : State) : Prop where
  /-- No call is answered, and what is in flight is a SEND's. -/
  | unanswered (hf : u.inFlight ≠ none → u.phase = .transmit) (hc : u.driverCalls = s.driverCalls)
  /-- The call of a SEND is answered with its command's waveform, and the SEND has ended. -/
  | answered (w : Waveform) (a : DrvAnswer) (hw : u.PlaysItsCommand w) (hf : u.inFlight = none)
      (hp : u.phase = .idle) (hc : u.driverCalls = s.driverCalls ++ [⟨w, a⟩])
      (hr : u.returned = s.returned ++ [.sent a.status.result])

section SendCall
variable {s u : State}

theorem SendCall.of_untouched (hn : s.inFlight = none) (hf : u.inFlight = s.inFlight)
    (hc : u.driverCalls = s.driverCalls) : SendCall s u := .unanswered (fun h => absurd (hf.trans hn) h) hc

/-- Of the state before, only the answered calls and the results matter. -/
theorem SendCall.of_ports_eq {v : State} (h : SendCall v u) (hd : v.driverCalls = s.driverCalls)
    (hret : v.returned = s.returned) : SendCall s u := by
  cases h with
  | unanswered hf hc => exact .unanswered hf (hc.trans hd)
  | answered w a hw hf hp hc hr => exact .answered w a hw hf hp (hd ▸ hc) (hret ▸ hr)

/-- The driver's answer in PHASE = TRANSMIT ends the SEND. -/
theorem State.Inv.settle_sendCall (h : s.Inv) (hp : s.phase = .transmit) {w : Waveform} (hf : s.inFlight = some w)
    (a : DrvAnswer) (rest : List DrvAnswer) : SendCall s (Machine.settle a (Machine.takeAnswer w a rest s)) := by
  rw [settle_transmit (s := Machine.takeAnswer w a rest s) hp]
  exact .answered w a (h.playsItsCommand hp hf) rfl rfl rfl rfl

/-- Phase TRANSMIT hands PULSES to the driver. -/
theorem State.Inv.play_sendCall (h : s.Inv) (hp : s.phase = .transmit)
    (hu : Machine.play ⟨s.cfg.outputLine, s.pulses⟩ s = .next u) : SendCall s u := by
  obtain ⟨-, -, -, ⟨-, rfl⟩ | ⟨a, rest, -, rfl⟩⟩ := play_eq_next hu
  · exact .unanswered (fun _ => hp) rfl
  · have hv : State.Inv { s with inFlight := some ⟨s.cfg.outputLine, s.pulses⟩ } := h.inFlight rfl (.inr ⟨hp, rfl⟩)
    exact (hv.settle_sendCall hp rfl a rest).of_ports_eq rfl rfl

theorem composeStage_sendCall (hn : s.inFlight = none) : SendCall s (composeStage s) := by
  obtain ⟨e, h⟩ | ⟨b, h⟩ := composeStage_cases s <;> rw [h] <;> exact .of_untouched hn rfl rfl

theorem synthStage_sendCall (hn : s.inFlight = none) : SendCall s (synthStage s) := by
  obtain h | ⟨-, h⟩ := synthStage_cases s <;> rw [h] <;> exact .of_untouched hn rfl rfl

theorem State.Inv.advance_sendCall (h : s.Inv) (hs : s.inFlight ≠ none → s.phase = .transmit)
    (hu : Machine.advance s = .next u) : SendCall s u := by
  obtain rfl | ⟨w, a, rest, hf, -, rfl⟩ | ⟨hn, ⟨-, rfl⟩ | ⟨-, rfl⟩ | ⟨-, rfl⟩ | ⟨hp, hu⟩⟩ := advance_cases hu
  · exact .unanswered hs rfl
  · exact h.settle_sendCall (hs (by simp [hf])) hf a rest
  · exact composeStage_sendCall hn
  · exact .of_untouched hn rfl rfl
  · exact synthStage_sendCall hn
  · exact h.play_sendCall hp hu

theorem Sends.sendCall (hn : s.inFlight = none) {m : Name} {t : Option Name} (h : Sends m t s u) : SendCall s u := by
  cases h with
  | failed e hc => exact .of_untouched hn rfl rfl
  | empty hc => exact .of_untouched hn rfl rfl
  | waiting b hc hb hl ha => exact .unanswered (fun _ => rfl) rfl
  | played b a rest hc hb hl ha => exact .answered _ a ⟨b, hc, hb, rfl⟩ hn rfl rfl rfl

theorem execSend_sendCall {m : Name} {t : Option Name} (h : execSend m t s = .next u) : SendCall s u := by
  obtain ⟨-, hr, hs⟩ := execSend_sends h
  exact hs.sendCall (ready_iff.1 hr).2

section Exec
variable (hs : s.inFlight ≠ none → s.phase = .transmit)
include hs

/-- LOOKUP, COMPOSE, ENCODE and SYNTHESIZE do not reach the driver. -/
theorem respond_sendCall {r : Response} (h : (.next (respond r s) : Out) = .next u) : SendCall s u := by
  obtain rfl : respond r s = u := by simpa using h
  exact .unanswered hs rfl

/-- Of the instructions only TRANSMIT reaches the driver without a SEND. -/
theorem exec_sendCall {i : Instr} (hi : i.op ≠ .transmit) (h : exec i s = .next u) : SendCall s u := by
  cases i with
  | lookupBase | lookupTail | lookupSpecial | compose | encode => exact respond_sendCall hs (whenLegal_eq_next h).2
  | synthesize rls =>
    obtain ⟨-, h⟩ := whenLegal_eq_next h
    split at h
    · exact absurd h (by simp)
    · exact respond_sendCall hs h
  | transmit ps l => exact absurd rfl hi
  | send m t => exact execSend_sendCall h
  | sendBase m => exact execSend_sendCall (execSend_of_sendClass composeBase_of_selected h)
  | sendBaseTail m t => exact execSend_sendCall (execSend_of_sendClass composeBaseTail_of_selected h)
  | sendBadTail m t => exact execSend_sendCall (execSend_of_sendClass composeBadTail_of_selected h)
  | sendSpecial m => exact execSend_sendCall (execSend_of_sendClass composeSpecial_of_selected h)
  | sendSpecialTail m t => exact execSend_sendCall (execSend_of_sendClass composeSpecialTail_of_selected h)
  | sendUnknown m t => exact execSend_sendCall (execSend_of_sendClass composeUnknown_of_selected h)

end Exec

/-- Where the caller issues every request, the request a step runs is no TRANSMIT. -/
theorem State.CallersOnly.step_sendCall (hc : s.CallersOnly) (h : s.Inv) (hu : Machine.step s = .next u) :
    SendCall s u := by
  obtain rfl | ⟨i, q, rest, -, hq, hi, he⟩ | ⟨-, -, ha⟩ := step_did hu
  · exact .unanswered hc.flight rfl
  · have hcaller : q.issuer = .caller := hc.issued q (by simp [hq])
    have hv : SendCall { s with requests := rest } u := exec_sendCall hc.flight ((receive_ok hi).2 hcaller) he
    exact hv.of_ports_eq rfl rfl
  · exact h.advance_sendCall hc.flight ha

/-- A step issues no request: it takes the next one from the list, or none. -/
theorem step_requests_suffix (h : step s = .next u) : u.requests <:+ s.requests := by
  obtain rfl | ⟨i, q, rest, -, hq, -, he⟩ | ⟨-, -, ha⟩ := step_did h
  · exact List.suffix_rfl
  · rw [(exec_frame he).requests, hq]
    exact List.suffix_cons q rest
  · rw [(advance_frame ha).requests]

end SendCall

/-- Settles O55: by what a step does with the driver's calls, the invariant after it giving the waveform that is still
in flight and the empty registers of a SEND that has ended. -/
theorem driverIsReachedOnlyThroughSend : Obligations.DriverIsReachedOnlyThroughSend := by
  intro s u hs hc h
  have hu : u.Inv := hs.step h
  have hissued : ∀ q ∈ u.requests, q.issuer = .caller :=
    fun q hq => hc.issued q ((step_requests_suffix h).subset hq)
  cases hc.step_sendCall hs h with
  | unanswered hf hd =>
    exact ⟨⟨hissued, hf⟩, fun w hw => ⟨hu.playsItsCommand (hf (by simp [hw])) hw, hd⟩, .inl hd⟩
  | answered w a hw hf hp hd hr =>
    obtain ⟨hcmd, hrl, hps⟩ := (registersFit_idle hp).1 hu.registers
    exact ⟨⟨hissued, fun hne => absurd hf hne⟩, fun w' hw' => absurd (hf.symm.trans hw') (by simp),
      .inr ⟨w, a, hd, hw, hf, hcmd, hrl, hps, hp, hr⟩⟩

end Sys2Proof.Machine
end

section
/-! PROOFS. The guard every instruction begins with (70_reset_and_hazards.md R213), and the delay the caller owes
(R221). -/

namespace Sys2Proof.Machine

open Sys2Proof

/-- Every instruction asks for a well-formed configuration before anything else. -/
theorem exec_eq_whenLegal (i : Instr) (s : State) : ∃ k, exec i s = whenLegal s k := by
  cases i <;> exact ⟨_, rfl⟩

/-- Settles O47: by the guard, a configuration that is not legal being ill-formed. -/
theorem illFormedConfigHasNoStep : Obligations.IllFormedConfigHasNoStep := by
  intro i s hl
  have hw : s.cfg.wf = false := by simp [Config.wf, hl]
  obtain ⟨k, hk⟩ := exec_eq_whenLegal i s
  rw [hk, whenLegal_not hw]

theorem owedDelay_transmitted (c : Config) {n : Nat} (hn : 0 < n) :
    owedDelay c (.ok ()) n = some (c.interCommandWait + n * c.marginPerBit) := if_neg hn.ne'

theorem owedDelay_empty (c : Config) : owedDelay c (.ok ()) 0 = none := rfl

theorem owedDelay_failed (c : Config) (e : Err) (n : Nat) : owedDelay c (.err e) n = none := rfl

/-- Settles O53: by the result, and for `ok` by whether the command has bits. -/
theorem delayTheCallerOwes : Obligations.DelayTheCallerOwes :=
  fun c n e => ⟨owedDelay_transmitted c, owedDelay_empty c, owedDelay_failed c e n⟩

end Sys2Proof.Machine
end
